-- ==== Sys2Proof/Word.lean ====
section
/-! DEFINITION. The data types of sha256_core: words, bytes, blocks, the eight-word register groups, the
sequencer's phase (spec/00_scope.md R7, R9; spec/10_state.md R21, R24, R26, R31). -/

namespace Sys2Proof

/-- One 32-bit unsigned word (00 R7 `WORD`). -/
abbrev Word := BitVec 32

/-- One byte of a message or of a block. -/
abbrev Byte := BitVec 8

/-- One 512-bit message block as it stands on `block_in`, byte 0 most significant (20 R55). -/
abbrev Block := BitVec 512

/-- The 256-bit value of the `digest` port (20 R59). -/
abbrev Digest := BitVec 256

/-- The hash state `H[0..7]` (10 R21): "Always exactly 8 words". -/
@[ext] structure HashState where
  h0 : Word
  h1 : Word
  h2 : Word
  h3 : Word
  h4 : Word
  h5 : Word
  h6 : Word
  h7 : Word
  deriving DecidableEq, Repr

/-- The working variables `V[0..7]` under the spec's own names `a .. h` (10 R24). -/
@[ext] structure WorkVars where
  a : Word
  b : Word
  c : Word
  d : Word
  e : Word
  f : Word
  g : Word
  h : Word
  deriving DecidableEq, Repr

/-- The message schedule `W[0..63]` (10 R31). -/
abbrev Schedule := Vector Word 64

/-- `H[k]` (00 R11). -/
def HashState.word (s : HashState) (k : Fin 8) : Word :=
  #v[s.h0, s.h1, s.h2, s.h3, s.h4, s.h5, s.h6, s.h7][k]

/-- `V[k]`, the naming positional and fixed (10 R24). -/
def WorkVars.word (v : WorkVars) (k : Fin 8) : Word :=
  #v[v.a, v.b, v.c, v.d, v.e, v.f, v.g, v.h][k]

/-- The three phases of the sequencer (10 R26). The code `0b11` cannot be written down, as R26 asks
(DEDUCED, safe: log 9). -/
inductive Phase
  | idle
  | round
  | update
  deriving DecidableEq, Repr

end Sys2Proof
end

