-- ==== Sys2Proof/Machine/Operands.lean ====
section
/-! DEFINITION. How bytes, words, blocks and the digest relate: every byte order of the hardware is decided here
(spec/20_memory.md R55 to R59; spec/41_framer_padding.md R125). Big-endian throughout (R57). -/

namespace Sys2Proof.Machine

/-- `BE32(b0, b1, b2, b3)`, first byte most significant (20 R56). -/
def be32 (b0 b1 b2 b3 : Byte) : Word := b0 ++ b1 ++ b2 ++ b3

/-- `BE64(n)`: the eight bytes of `n`, most significant first (41 R125). -/
def be64 (n : BitVec 64) : List Byte :=
  [n.extractLsb' 56 8, n.extractLsb' 48 8, n.extractLsb' 40 8, n.extractLsb' 32 8,
   n.extractLsb' 24 8, n.extractLsb' 16 8, n.extractLsb' 8 8, n.extractLsb' 0 8]

/-- Byte `j` of a block, on bits `[511 - 8j : 504 - 8j]` (20 R55). -/
def blockByte (b : Block) (j : Nat) : Byte := b.extractLsb' (504 - 8 * j) 8

/-- The 64 bytes of a block in order. -/
def blockBytes (b : Block) : List Byte := (List.range 64).map (blockByte b)

/-- The block whose bytes, in order, are the given ones (20 R55, R58). -/
def blockOfBytes (bs : List Byte) : Block :=
  bs.foldl (fun acc b => (acc <<< 8) ||| b.setWidth 512) 0

/-- Word `M[j]` of a block: `blk[511 - 32j : 480 - 32j]` (30 R84, 20 R56). -/
def blockWord (b : Block) (j : Nat) : Word := b.extractLsb' (480 - 32 * j) 32

/-- `digest = H[0] ‖ H[1] ‖ ... ‖ H[7]` (20 R59). -/
def digestOf (h : HashState) : Digest :=
  h.h0 ++ h.h1 ++ h.h2 ++ h.h3 ++ h.h4 ++ h.h5 ++ h.h6 ++ h.h7

/-- Byte `j` of the digest, on bits `[255 - 8j : 248 - 8j]` (20 R59). -/
def digestByte (d : Digest) (j : Nat) : Byte := d.extractLsb' (248 - 8 * j) 8

/-- The sixteen lowercase hexadecimal digits. -/
def hexDigits : List Char :=
  ['0', '1', '2', '3', '4', '5', '6', '7', '8', '9', 'a', 'b', 'c', 'd', 'e', 'f']

/-- The canonical rendering of a digest: the 256-bit port value as 64 lowercase hexadecimal digits, most
significant first, no digit dropped (44 R182; a host obligation outside the core). -/
def renderDigest (d : Digest) : List Char :=
  (List.range 64).map fun i => hexDigits.getD (d.extractLsb' (252 - 4 * i) 4).toNat '0'

end Sys2Proof.Machine
end

