-- ==== Sys2Proof/Config.lean ====
section
/-! DEFINITION. What is fixed for the machine and is not state (spec/00_scope.md R7, R8, R17). The two constant
tables are in Machine/Rom.lean. -/

namespace Sys2Proof.Config

/-- `NSTATE`, hash-state words (00 R7). -/
def nState : Nat := 8

/-- `BLOCK_BYTES` (00 R7). -/
def blockBytes : Nat := 64

/-- `NSCHED`, schedule words of a block (00 R7). -/
def nSched : Nat := 64

/-- `NROUND`, rounds of a block (00 R7). -/
def nRound : Nat := 64

/-- `DIGEST_BITS` (00 R7). -/
def digestBits : Nat := 256

/-- `LEN_BITS`, width of the FRAMER's bit-length counter (00 R7). -/
def lenBits : Nat := 64

/-- `BLOCK_EDGES`: 1 LOAD + 64 ROUND + 1 UPDATE (00 R8, 70 R222). Nothing of the step depends on it. -/
def blockEdges : Nat := 66

/-- `pad`, HASH and `compute_digest` take messages of fewer bytes than this (41 R128). -/
def maxMessageBytes : Nat := 2 ^ 61

end Sys2Proof.Config
end

