-- ==== Sys2Proof/Syntax.lean ====
section
/-! DEFINITION. The operations of spec/opcode_table.json, one constructor a row (spec/30_encoding.md R85). -/

namespace Sys2Proof

/-- One operation. CMD, MICRO and PIN rows carry the operand the port delivers; FUNC rows, which nothing
selects and which have no encoding (30 R85), carry their operands as values (DESIGN CHOICE, safe: log 4). -/
inductive Instr
  /-- CMD `0b00` (44 R170). -/
  | nop
  /-- CMD `0b01` (44 R171). -/
  | init
  /-- CMD `0b10`, operand the block (44 R172). -/
  | block (blk : Block)
  /-- CMD `0b11`, the reserved opcode (44 R173). -/
  | rsvd
  /-- MICRO: idle, no command offered (44 R174). -/
  | hold
  /-- MICRO: the first edge of a BLOCK, operand `block_in` (43 R153). -/
  | load (blk : Block)
  /-- MICRO: one round (43 R155). -/
  | round
  /-- MICRO: the fold-back (43 R158). -/
  | update
  /-- PIN: `rst = 1` (70 R210). -/
  | reset
  /-- FUNC (40 R100). -/
  | add32 (x y : Word)
  /-- FUNC (40 R101). -/
  | xor (x y : Word)
  /-- FUNC (40 R101). -/
  | and (x y : Word)
  /-- FUNC (40 R101). -/
  | not (x : Word)
  /-- FUNC (40 R102). -/
  | rotr (x : Word) (n : Nat)
  /-- FUNC (40 R103). -/
  | shr (x : Word) (n : Nat)
  /-- FUNC (40 R104). -/
  | lsigma0 (x : Word)
  /-- FUNC (40 R105). -/
  | lsigma1 (x : Word)
  /-- FUNC (40 R106). -/
  | usigma0 (x : Word)
  /-- FUNC (40 R107). -/
  | usigma1 (x : Word)
  /-- FUNC (40 R108). -/
  | ch (x y z : Word)
  /-- FUNC (40 R109). -/
  | maj (x y z : Word)
  /-- FUNC (42 R140). -/
  | sched (blk : Block)
  /-- FUNC (43 R151). -/
  | t1 (e f g h k w : Word)
  /-- FUNC (43 R152). -/
  | t2 (a b c : Word)
  /-- FUNC (43 R154). -/
  | roundfn (v : WorkVars) (k w : Word)
  /-- FUNC (43 R159). -/
  | compress (h : HashState) (blk : Block)
  /-- FUNC (44 R179). -/
  | hashblocks (h : HashState) (blks : List Block)
  /-- FUNC, host side (41 R121). -/
  | pad (m : List Byte)
  /-- FUNC, host side (44 R181). -/
  | computeDigest (m : List Byte)
  deriving DecidableEq, Repr

end Sys2Proof
end

