-- ==== Sys2Proof/Machine/State.lean ====
section
/-! DEFINITION. The state of the machine as plain data, its reset value, and the reasons a step can stop
(spec/10_state.md R20; spec/41_framer_padding.md R127, R132; spec/00_scope.md R16; spec/30_encoding.md R89, R90). -/

namespace Sys2Proof.Machine

/-- The complete state of one `sha256_core` instance (10 R20, "There is no other state"). -/
@[ext] structure Regs where
  /-- `H[0..7]`, the hash state (10 R21). -/
  h : HashState
  /-- `V[0..7]` = `a .. h`, the working variables (10 R24). -/
  v : WorkVars
  /-- `W[0..63]`, the message schedule (10 R31). -/
  w : Schedule
  /-- The sequencer's phase (10 R26). -/
  phase : Phase
  /-- The round counter (10 R25). -/
  t : BitVec 6
  /-- The digest-valid flag (10 R28). -/
  dv : Bool
  /-- The sticky fault flag (10 R28). -/
  err : Bool
  deriving DecidableEq, Repr

/-- The inputs one rising edge samples (10 R30). -/
structure Pins where
  rst : Bool
  cmdValid : Bool
  cmdOp : BitVec 2
  blockIn : Block
  deriving DecidableEq, Repr

/-- The FRAMER's own state (41 R127, R132). -/
@[ext] structure Framer where
  /-- The Bit-Length Counter (41 R127). -/
  counter : BitVec 64
  /-- The residual partial block (41 R132). -/
  residual : List Byte
  deriving DecidableEq, Repr

/-- An assertion about the outputs, `EXPECT ...` (30 R89). -/
inductive Expectation
  | ready (b : Bool)
  | digest (d : Digest)
  | digestValid (b : Bool)
  | err (b : Bool)
  deriving DecidableEq, Repr

/-- One thing the host does next. The first seven are the script items of 30 R89, the next two the
pseudo-instructions of 30 R90, then the FRAMER's three operations (41 R132); `edge` is the signal level of
95_test_vectors.md 6.7, `command` the command level of 44 R170 to R173, and `apply` performs one row of the opcode
table by itself, which is how a FUNC row, that nothing selects, is run (DESIGN CHOICE: log 1, log 2, log 4). -/
inductive Drive
  /-- `RESET`: one edge with `rst = 1`. -/
  | reset
  /-- `NOP`, `INIT`, `BLOCK <digits>`, `RSVD`: waits until `ready`, then one edge that offers the command. -/
  | offer (op : BitVec 2) (blk : Block)
  /-- `IDLE n`: `n` edges with no command. -/
  | idle (n : Nat)
  /-- `WAIT`: edges with no command until `ready`. -/
  | wait
  /-- `EXPECT ...`: drives nothing. -/
  | expect (e : Expectation)
  /-- `HASH M`. -/
  | hash (m : List Byte)
  /-- `DIGEST`: reads the port when `ready` and `digest_valid`. -/
  | digest
  /-- The FRAMER's `init`. -/
  | framerInit
  /-- The FRAMER's `update(chunk)`; its blocks are delivered to the core in order. -/
  | framerUpdate (chunk : List Byte)
  /-- The FRAMER's `finalize`. -/
  | framerFinalize
  /-- One clock edge with these inputs. -/
  | edge (p : Pins)
  /-- Waits until `ready`, then one whole command as one step. -/
  | command (op : BitVec 2) (blk : Block)
  /-- One row of the opcode table, applied by itself. -/
  | apply (i : Instr)
  deriving DecidableEq, Repr

/-- What a FUNC row delivers (the model's own, log 3). -/
inductive FuncResult
  | none
  | word (x : Word)
  | schedule (w : Schedule)
  | vars (v : WorkVars)
  | hash (h : HashState)
  | blocks (bs : List Block)
  deriving DecidableEq, Repr

/-- The state of the model: the core's registers, the host with its FRAMER, and the model's result latch. -/
structure State where
  /-- The core (10 R20). -/
  regs : Regs
  /-- What the host does next, first item first (00 R16; 30 R89). -/
  todo : List Drive
  /-- The FRAMER on the host's side (41 R127, R132). -/
  framer : Framer
  /-- The digest the host last sampled, kept until the next DIGEST; whether it is of the computation under way is
  `HashRun`'s to say (44 R184; log 18). -/
  sampled : Option Digest
  /-- What the last applied FUNC row delivered; nothing of the core reads it (the model's own, log 3). -/
  result : FuncResult
  deriving DecidableEq, Repr

/-- The reasons a step stops with a fault. -/
inductive Fault
  /-- Cause 1 of 60 R192. RECORDED by RSVD in `err`; the machine goes on, so no step answers with it (safe:
  log 6). -/
  | illegalCommand
  /-- Raised by `step` at a script `EXPECT` that does not hold: the script's run ends there (safe: log 14). -/
  | expectationFailed
  deriving DecidableEq, Repr

/-- The reasons a step is refused. -/
inductive Refusal
  /-- Raised by `exec` for an instruction with no meaning yet (safe). -/
  | notModelled (mnemonic : String)
  /-- Raised by PAD, COMPUTE_DIGEST, HASH and the FRAMER for a message of 2^61 bytes or more, as 41 R128
  and 93 U2 ask (safe: log 7). -/
  | messageTooLong
  /-- Raised by `step` for a word that decodes to no operation, which is none that an edge or a command can form:
  `phase = 0b11` is stuck (10 R26; safe: log 9). -/
  | noOperation
  deriving DecidableEq, Repr

/-- The machine right after reset: the core's registers as 70 R210 writes them, the host with nothing to do. -/
def State.reset : State where
  regs :=
    { h := iv
      v := ⟨0, 0, 0, 0, 0, 0, 0, 0⟩
      w := Vector.replicate 64 0
      phase := .idle
      t := 0
      dv := false
      err := false }
  todo := []
  framer := ⟨0, []⟩
  sampled := Option.none
  result := .none

end Sys2Proof.Machine
end

