-- ==== Sys2Proof/Machine/Flags.lean ====
section
/-! DEFINITION. The status bits and output ports (spec/10_state.md R28, R30; spec/60_exceptions.md R192). There are
no arithmetic condition codes. -/

namespace Sys2Proof.Machine

/-- `ready = 1` iff `phase = IDLE` (10 R28). -/
def Regs.ready (r : Regs) : Bool := decide (r.phase = .idle)

/-- The `digest` port, driven from `H` (20 R59). -/
def Regs.digest (r : Regs) : Digest := digestOf r.h

/-- The `digest_valid` port (10 R28). -/
def Regs.digestValid (r : Regs) : Bool := r.dv

/-- The `err` port (10 R28). -/
def Regs.errPort (r : Regs) : Bool := r.err

/-- `dv` written (10 R28). -/
def Regs.setDv (r : Regs) (b : Bool) : Regs := { r with dv := b }

/-- `err <- 1` (60 R191). -/
def Regs.setErr (r : Regs) : Regs := { r with err := true }

/-- The recorded fault: `err` is the only record (60 R191, R192). -/
def Regs.cause (r : Regs) : Option Fault := if r.err then some .illegalCommand else none

/-- The numbering of 60 R192; 0 is "no fault". -/
def faultCode : Option Fault → Nat
  | none => 0
  | some .illegalCommand => 1
  | some .expectationFailed => 0

/-- Whether an `EXPECT` holds of the outputs (30 R89). -/
def Expectation.holds (r : Regs) : Expectation → Bool
  | .ready b => r.ready == b
  | .digest d => r.digest == d
  | .digestValid b => r.digestValid == b
  | .err b => r.errPort == b

end Sys2Proof.Machine
end

