-- ==== Sys2Proof/Machine/Ops.lean ====
section
/-! DEFINITION. The named operations over the state: one write of each field, a rule that fires in a phase
(spec/00_scope.md R13), the delivery of a FUNC result, the recording of the one fault
(spec/60_exceptions.md R191) and reset, its only way back (spec/70_reset_and_hazards.md R210; there is no
return from a fault, R198). -/

namespace Sys2Proof.Machine

/-- The core's registers written. -/
def State.setRegs (s : State) (r : Regs) : State := { s with regs := r }

/-- The host's list of actions written. -/
def State.setTodo (s : State) (d : List Drive) : State := { s with todo := d }

/-- The FRAMER's state written. -/
def State.setFramer (s : State) (f : Framer) : State := { s with framer := f }

/-- The host's sample written. -/
def State.setSampled (s : State) (d : Digest) : State := { s with sampled := some d }

/-- The result latch written. -/
def State.setResult (s : State) (v : FuncResult) : State := { s with result := v }

/-- A rule guarded by `phase = p`: it fires and writes, or it does not fire and every register keeps its value
(00 R13; for a command offered while busy, 44 R175) (DEDUCED, safe: log 5). -/
def State.fire (s : State) (p : Phase) (write : Regs → Regs) : State :=
  if s.regs.phase = p then s.setRegs (write s.regs) else s

/-- A FUNC row delivers its value and writes nothing of the core (40, common part). -/
def deliver (v : FuncResult) (s : State) : Host.Outcome State Fault Refusal := .next (s.setResult v)

/-- Taking the one exception, `raise IllegalCommand`: `err <- 1`, nothing saved, no mode, no transfer of control
(60 R191, R197). -/
def raiseIllegalCommand (r : Regs) : Regs := r.setErr

/-- What a reset edge writes, whatever the registers were (70 R210). -/
def resetRegs (r : Regs) : Regs :=
  { r with
    h := iv
    v := ⟨0, 0, 0, 0, 0, 0, 0, 0⟩
    w := Vector.replicate 64 0
    phase := .idle
    t := 0
    dv := false
    err := false }

end Sys2Proof.Machine
end

