-- ==== Sys2Proof/Machine/Mixer.lean ====
section
/-! DEFINITION. `bitwise_mixer_tree`: the word-level primitives and the meanings of their rows
(spec/40_bitwise_mixer_tree.md R100 to R109). -/

namespace Sys2Proof.Machine

/-- `x +32 y`, the carry out of bit 31 discarded (40 R100). -/
def add32 (x y : Word) : Word := x + y

/-- `x xor y` (40 R101). -/
def xor32 (x y : Word) : Word := x ^^^ y

/-- `x and y` (40 R101). -/
def and32 (x y : Word) : Word := x &&& y

/-- `not x` over exactly 32 bits (40 R101). -/
def not32 (x : Word) : Word := ~~~x

/-- `x >> n`, zeros shifted in (40 R103); 0 from `n = 32` on, as 93 U10 allows (DESIGN CHOICE, safe: log 12). -/
def shr (x : Word) (n : Nat) : Word := x >>> n

/-- `rotr(x, n) = (x >> n) xor (x * 2^(32-n) mod 2^32)` (40 R102), the amount taken modulo 32, as 93 U10 allows
(DESIGN CHOICE, safe: log 12). -/
def rotr (x : Word) (n : Nat) : Word := xor32 (shr x (n % 32)) (x <<< (32 - n % 32))

/-- σ0 (40 R104). -/
def lowerSigma0 (x : Word) : Word := xor32 (xor32 (rotr x 7) (rotr x 18)) (shr x 3)

/-- σ1 (40 R105). -/
def lowerSigma1 (x : Word) : Word := xor32 (xor32 (rotr x 17) (rotr x 19)) (shr x 10)

/-- Σ0 (40 R106). -/
def upperSigma0 (x : Word) : Word := xor32 (xor32 (rotr x 2) (rotr x 13)) (rotr x 22)

/-- Σ1 (40 R107). -/
def upperSigma1 (x : Word) : Word := xor32 (xor32 (rotr x 6) (rotr x 11)) (rotr x 25)

/-- Ch (40 R108). -/
def choice (x y z : Word) : Word := xor32 (and32 x y) (and32 (not32 x) z)

/-- Maj (40 R109). -/
def majority (x y z : Word) : Word := xor32 (xor32 (and32 x y) (and32 x z)) (and32 y z)

/-- ADD32 (40 R100). -/
def execAdd32 (x y : Word) (s : State) : Host.Outcome State Fault Refusal := deliver (.word (add32 x y)) s

/-- XOR (40 R101). -/
def execXor (x y : Word) (s : State) : Host.Outcome State Fault Refusal := deliver (.word (xor32 x y)) s

/-- AND (40 R101). -/
def execAnd (x y : Word) (s : State) : Host.Outcome State Fault Refusal := deliver (.word (and32 x y)) s

/-- NOT (40 R101). -/
def execNot (x : Word) (s : State) : Host.Outcome State Fault Refusal := deliver (.word (not32 x)) s

/-- ROTR (40 R102). -/
def execRotr (x : Word) (n : Nat) (s : State) : Host.Outcome State Fault Refusal := deliver (.word (rotr x n)) s

/-- SHR (40 R103). -/
def execShr (x : Word) (n : Nat) (s : State) : Host.Outcome State Fault Refusal := deliver (.word (shr x n)) s

/-- LSIGMA0 (40 R104). -/
def execLsigma0 (x : Word) (s : State) : Host.Outcome State Fault Refusal := deliver (.word (lowerSigma0 x)) s

/-- LSIGMA1 (40 R105). -/
def execLsigma1 (x : Word) (s : State) : Host.Outcome State Fault Refusal := deliver (.word (lowerSigma1 x)) s

/-- USIGMA0 (40 R106). -/
def execUsigma0 (x : Word) (s : State) : Host.Outcome State Fault Refusal := deliver (.word (upperSigma0 x)) s

/-- USIGMA1 (40 R107). -/
def execUsigma1 (x : Word) (s : State) : Host.Outcome State Fault Refusal := deliver (.word (upperSigma1 x)) s

/-- CH (40 R108). -/
def execCh (x y z : Word) (s : State) : Host.Outcome State Fault Refusal := deliver (.word (choice x y z)) s

/-- MAJ (40 R109). -/
def execMaj (x y z : Word) (s : State) : Host.Outcome State Fault Refusal := deliver (.word (majority x y z)) s

end Sys2Proof.Machine
end

