-- ==== Sys2Proof/Machine/Schedule.lean ====
section
/-! DEFINITION. `msg_schedule_expansion`: the schedule as registers and as a function
(spec/42_msg_schedule_expansion.md R140 to R144; spec/10_state.md R31, R32). -/

namespace Sys2Proof.Machine

/-- `W[t]`, the index the 6-bit counter (10 R31, 42 R144). -/
def readW (w : Schedule) (t : BitVec 6) : Word := w[t.toNat]'t.isLt

/-- `W[t] <- x`. -/
def writeW (w : Schedule) (t : BitVec 6) (x : Word) : Schedule := w.set t.toNat x t.isLt

/-- The first `n` schedule registers written with the block's words, the others kept (43 R153, 42 R141). -/
def loadW (blk : Block) (w : Schedule) : Nat → Schedule
  | 0 => w
  | n + 1 => (loadW blk w n).setIfInBounds n (blockWord blk n)

/-- The recurrence of 42 R142, from the words 2, 7, 15 and 16 back; taken only for `t >= 16`. -/
def nextW (w : Schedule) (t : BitVec 6) : Word :=
  add32 (add32 (add32 (lowerSigma1 (readW w (t - 2))) (readW w (t - 7))) (lowerSigma0 (readW w (t - 15))))
    (readW w (t - 16))

/-- The word round `t` consumes: `W[t]`, or for `t >= 16` the recurrence (43 R155). -/
def roundWord (w : Schedule) (t : BitVec 6) : Word := if t.toNat ≤ 15 then readW w t else nextW w t

/-- The schedule registers after round `t`: rounds 0 to 15 write none (43 R155). -/
def roundW (w : Schedule) (t : BitVec 6) : Schedule :=
  if t.toNat ≤ 15 then w else writeW w t (nextW w t)

/-- The schedule with words 0 to 15 loaded and `n` further words derived. -/
def schedAfter (blk : Block) : Nat → Schedule
  | 0 => loadW blk (Vector.replicate 64 0) 16
  | n + 1 =>
    writeW (schedAfter blk n) (BitVec.ofNat 6 (16 + n)) (nextW (schedAfter blk n) (BitVec.ofNat 6 (16 + n)))

/-- `sched(B)`: all 64 words (42 R140). -/
def sched (blk : Block) : Schedule := schedAfter blk 48

/-- SCHED (42 R140). -/
def execSched (blk : Block) (s : State) : Host.Outcome State Fault Refusal := deliver (.schedule (sched blk)) s

/-! The 16-word circular window that 10 R32 allows instead of the 64 words. The machine does not use it; that it
computes the same words is an obligation. -/

/-- The window after words 0 to 15 are loaded and `n` further words derived, word `t` in place `t mod 16`. -/
def windowAfter (blk : Block) : Nat → Vector Word 16
  | 0 => #v[blockWord blk 0, blockWord blk 1, blockWord blk 2, blockWord blk 3, blockWord blk 4, blockWord blk 5,
            blockWord blk 6, blockWord blk 7, blockWord blk 8, blockWord blk 9, blockWord blk 10, blockWord blk 11,
            blockWord blk 12, blockWord blk 13, blockWord blk 14, blockWord blk 15]
  | n + 1 =>
    let win := windowAfter blk n
    let at' := fun i : BitVec 4 => win[i.toNat]'i.isLt
    let t := BitVec.ofNat 4 n
    win.set t.toNat
      (add32 (add32 (add32 (lowerSigma1 (at' (t - 2))) (at' (t - 7))) (lowerSigma0 (at' (t - 15)))) (at' (t - 16)))
      t.isLt

end Sys2Proof.Machine
end

