-- ==== Sys2Proof/Machine/Compression.lean ====
section
/-! DEFINITION. `compression_round_fsm`: the round as pure functions, and the three clocked micro-operations
(spec/43_compression_round_fsm.md R151 to R159). -/

namespace Sys2Proof.Machine

/-- `T1` (43 R151). -/
def t1 (e f g h k w : Word) : Word := add32 (add32 (add32 (add32 (upperSigma1 e) (choice e f g)) h) k) w

/-- `T2` (43 R152). -/
def t2 (a b c : Word) : Word := add32 (upperSigma0 a) (majority a b c)

/-- `round(V, k, w)`; the eight assignments are simultaneous (43 R154). -/
def roundFn (v : WorkVars) (k w : Word) : WorkVars where
  a := add32 (t1 v.e v.f v.g v.h k w) (t2 v.a v.b v.c)
  b := v.a
  c := v.b
  d := v.c
  e := add32 v.d (t1 v.e v.f v.g v.h k w)
  f := v.e
  g := v.f
  h := v.g

/-- `V[k] <- H[k]`, positionally (43 R153, 10 R24). -/
def varsOf (s : HashState) : WorkVars := ⟨s.h0, s.h1, s.h2, s.h3, s.h4, s.h5, s.h6, s.h7⟩

/-- `H[k] +32 V[k]` for every `k` (43 R158). -/
def foldBack (s : HashState) (v : WorkVars) : HashState :=
  ⟨add32 s.h0 v.a, add32 s.h1 v.b, add32 s.h2 v.c, add32 s.h3 v.d, add32 s.h4 v.e, add32 s.h5 v.f,
   add32 s.h6 v.g, add32 s.h7 v.h⟩

/-- `V_n` of 43 R159: the working variables after `n` rounds from the hash state, over a schedule. -/
def varsAfter (s : HashState) (w : Schedule) : Nat → WorkVars
  | 0 => varsOf s
  | n + 1 => roundFn (varsAfter s w n) (romK (BitVec.ofNat 6 n)) (readW w (BitVec.ofNat 6 n))

/-- `compress(S, B)` (43 R159). -/
def compress (s : HashState) (blk : Block) : HashState := foldBack s (varsAfter s (sched blk) 64)

/-- T1 (43 R151). -/
def execT1 (e f g h k w : Word) (s : State) : Host.Outcome State Fault Refusal := deliver (.word (t1 e f g h k w)) s

/-- T2 (43 R152). -/
def execT2 (a b c : Word) (s : State) : Host.Outcome State Fault Refusal := deliver (.word (t2 a b c)) s

/-- ROUNDFN (43 R154). -/
def execRoundfn (v : WorkVars) (k w : Word) (s : State) : Host.Outcome State Fault Refusal :=
  deliver (.vars (roundFn v k w)) s

/-- COMPRESS (43 R159). -/
def execCompress (h : HashState) (blk : Block) (s : State) : Host.Outcome State Fault Refusal :=
  deliver (.hash (compress h blk)) s

/-- What LOAD writes (43 R153). -/
def loadRegs (blk : Block) (r : Regs) : Regs :=
  { r with w := loadW blk r.w 16, v := varsOf r.h, t := 0, phase := .round, dv := false }

/-- What ROUND writes (43 R155). -/
def roundRegs (r : Regs) : Regs :=
  { r with
    w := roundW r.w r.t
    v := roundFn r.v (romK r.t) (roundWord r.w r.t)
    phase := if r.t = 63 then .update else r.phase
    t := if r.t = 63 then 0 else r.t + 1 }

/-- What UPDATE writes (43 R158). -/
def updateRegs (r : Regs) : Regs := { r with h := foldBack r.h r.v, dv := true, phase := .idle }

/-- LOAD; `cmd_valid` and `cmd_op` of its guard are in its selector (43 R153). -/
def execLoad (blk : Block) (s : State) : Host.Outcome State Fault Refusal := .next (s.fire .idle (loadRegs blk))

/-- ROUND (43 R155). -/
def execRound (s : State) : Host.Outcome State Fault Refusal := .next (s.fire .round roundRegs)

/-- UPDATE (43 R158). -/
def execUpdate (s : State) : Host.Outcome State Fault Refusal := .next (s.fire .update updateRegs)

end Sys2Proof.Machine
end

