-- ==== Sys2Proof/Machine/Framer.lean ====
section
/-! DEFINITION. The FRAMER: `pad`, its procedural form and its incremental form
(spec/41_framer_padding.md R121, R123, R125, R132). -/

namespace Sys2Proof.Machine

/-- The first `n` whole blocks of a byte string. -/
def cutBlocks : Nat → List Byte → List Block
  | 0, _ => []
  | n + 1, bs => blockOfBytes (bs.take 64) :: cutBlocks n (bs.drop 64)

/-- `k = (55 - L) mod 64`, the number of zero bytes (41 R121). -/
def zeroFill (len : Nat) : Nat := (119 - len % 64) % 64

/-- The padded byte string `P = M ‖ 0x80 ‖ k zeros ‖ BE64(8 L)` (41 R121). -/
def paddedBytes (m : List Byte) : List Byte :=
  m ++ [0x80#8] ++ List.replicate (zeroFill m.length) 0#8 ++ be64 (BitVec.ofNat 64 (8 * m.length))

/-- `N = (L + 72) div 64` (41 R122). -/
def blockCount (len : Nat) : Nat := (len + 72) / 64

/-- `pad(M)`: `P` cut into blocks (41 R121). -/
def pad (m : List Byte) : List Block := cutBlocks (blockCount m.length) (paddedBytes m)

/-- `init`: counter 0, empty residual (41 R132). -/
def framerStart : Framer := ⟨0, []⟩

/-- The whole blocks `update(chunk)` emits (41 R132). -/
def updateBlocks (f : Framer) (chunk : List Byte) : List Block :=
  cutBlocks ((f.residual ++ chunk).length / 64) (f.residual ++ chunk)

/-- The FRAMER after `update(chunk)`: 512 per emitted block, the rest kept (41 R132, R127). -/
def framerUpdate (f : Framer) (chunk : List Byte) : Framer where
  counter := f.counter + BitVec.ofNat 64 (512 * ((f.residual ++ chunk).length / 64))
  residual := (f.residual ++ chunk).drop (64 * ((f.residual ++ chunk).length / 64))

/-- The counter when the trailer is written: advanced by `8 * r` (41 R123, R127). -/
def finalCounter (f : Framer) : BitVec 64 := f.counter + BitVec.ofNat 64 (8 * f.residual.length)

/-- The one or two final blocks (41 R123): one if `r <= 55`, two from `r = 56` on. -/
def finalBlocks (f : Framer) : List Block :=
  if f.residual.length ≤ 55 then
    [blockOfBytes (f.residual ++ [0x80#8] ++ List.replicate (55 - f.residual.length) 0#8 ++ be64 (finalCounter f))]
  else
    [blockOfBytes (f.residual ++ [0x80#8] ++ List.replicate (63 - f.residual.length) 0#8),
     blockOfBytes (List.replicate 56 0#8 ++ be64 (finalCounter f))]

/-- The FRAMER after `finalize`: the counter that was written, nothing left over (DESIGN CHOICE, safe: log 7). -/
def framerFinish (f : Framer) : Framer := ⟨finalCounter f, []⟩

/-- Whether the bit count stays below 2^64 over `update(chunk)` (41 R128; log 7). -/
def updateFits (f : Framer) (chunk : List Byte) : Bool :=
  decide (f.counter.toNat + 512 * ((f.residual ++ chunk).length / 64) < 2 ^ 64)

/-- Whether the bit count stays below 2^64 over `finalize` (41 R128; log 7). -/
def finalizeFits (f : Framer) : Bool := decide (f.counter.toNat + 8 * f.residual.length < 2 ^ 64)

/-- PAD, for messages shorter than 2^61 bytes; longer ones are refused (41 R121, R128). -/
def execPad (m : List Byte) (s : State) : Host.Outcome State Fault Refusal :=
  if m.length < Config.maxMessageBytes then deliver (.blocks (pad m)) s else .refused .messageTooLong

end Sys2Proof.Machine
end

