-- ==== Sys2Proof/Machine/Commands.lean ====
section
/-! DEFINITION. The commands at command level, HOLD, and the whole-message functions
(spec/44_commands_and_digest.md R170 to R174, R179, R181). -/

namespace Sys2Proof.Machine

/-- What INIT writes (44 R171). -/
def initRegs (r : Regs) : Regs := { r.setDv false with h := iv }

/-- What a whole BLOCK leaves, all 66 edges of it: `H` and `dv` as 44 R172 says, `V`, `W` and `t` as its LOAD, 64
ROUNDs and UPDATE leave them (43 R160; 93 U8) (DEDUCED, safe: log 1). -/
def blockRegs (blk : Block) (r : Regs) : Regs :=
  { r with
    h := compress r.h blk
    v := varsAfter r.h (sched blk) 64
    w := sched blk
    t := 0
    phase := .idle
    dv := true }

/-- HOLD: no register changes (44 R174). -/
def execHold (s : State) : Host.Outcome State Fault Refusal := .next s

/-- NOP: no register changes (44 R170). -/
def execNop (s : State) : Host.Outcome State Fault Refusal := .next s

/-- INIT (44 R171). -/
def execInit (s : State) : Host.Outcome State Fault Refusal := .next (s.fire .idle initRegs)

/-- BLOCK at command level (44 R172). -/
def execBlock (blk : Block) (s : State) : Host.Outcome State Fault Refusal := .next (s.fire .idle (blockRegs blk))

/-- RSVD: takes the one exception; the machine goes on (44 R173, 60 R191). -/
def execRsvd (s : State) : Host.Outcome State Fault Refusal := .next (s.fire .idle raiseIllegalCommand)

/-- `hash_blocks`, the fold of `compress` (44 R179). -/
def hashBlocks (h : HashState) : List Block → HashState
  | [] => h
  | b :: bs => hashBlocks (compress h b) bs

/-- `compute_digest(M) = hash_blocks(IV, pad(M))` (44 R181). -/
def computeDigest (m : List Byte) : HashState := hashBlocks iv (pad m)

/-- HASHBLOCKS (44 R179). -/
def execHashblocks (h : HashState) (blks : List Block) (s : State) : Host.Outcome State Fault Refusal :=
  deliver (.hash (hashBlocks h blks)) s

/-- COMPUTE_DIGEST, for messages shorter than 2^61 bytes; longer ones are refused (44 R181, 41 R128). -/
def execComputeDigest (m : List Byte) (s : State) : Host.Outcome State Fault Refusal :=
  if m.length < Config.maxMessageBytes then deliver (.hash (computeDigest m)) s else .refused .messageTooLong

end Sys2Proof.Machine
end

