-- ==== Sys2Proof/Machine/Reset.lean ====
section
/-! DEFINITION. The reset pin (spec/70_reset_and_hazards.md R210). -/

namespace Sys2Proof.Machine

/-- RESET: every register of the core, in any phase; the host is untouched (70 R210, 60 R196). -/
def execReset (s : State) : Host.Outcome State Fault Refusal := .next (s.setRegs (resetRegs s.regs))

end Sys2Proof.Machine
end

