-- ==== Sys2Proof/Machine/Dispatch.lean ====
section
/-! DEFINITION. One arm per constructor of Instr. -/

namespace Sys2Proof.Machine

def exec (i : Instr) (s : State) : Host.Outcome State Fault Refusal :=
  match i with
  -- CMD (44 R170 to R173)
  | .nop => Sys2Proof.Machine.execNop s
  | .init => Sys2Proof.Machine.execInit s
  | .block blk => Sys2Proof.Machine.execBlock blk s
  | .rsvd => Sys2Proof.Machine.execRsvd s
  -- MICRO (44 R174; 43 R153, R155, R158)
  | .hold => Sys2Proof.Machine.execHold s
  | .load blk => Sys2Proof.Machine.execLoad blk s
  | .round => Sys2Proof.Machine.execRound s
  | .update => Sys2Proof.Machine.execUpdate s
  -- PIN (70 R210)
  | .reset => Sys2Proof.Machine.execReset s
  -- FUNC (40, 42, 43, 44, 41)
  | .add32 x y => Sys2Proof.Machine.execAdd32 x y s
  | .xor x y => Sys2Proof.Machine.execXor x y s
  | .and x y => Sys2Proof.Machine.execAnd x y s
  | .not x => Sys2Proof.Machine.execNot x s
  | .rotr x n => Sys2Proof.Machine.execRotr x n s
  | .shr x n => Sys2Proof.Machine.execShr x n s
  | .lsigma0 x => Sys2Proof.Machine.execLsigma0 x s
  | .lsigma1 x => Sys2Proof.Machine.execLsigma1 x s
  | .usigma0 x => Sys2Proof.Machine.execUsigma0 x s
  | .usigma1 x => Sys2Proof.Machine.execUsigma1 x s
  | .ch x y z => Sys2Proof.Machine.execCh x y z s
  | .maj x y z => Sys2Proof.Machine.execMaj x y z s
  | .sched blk => Sys2Proof.Machine.execSched blk s
  | .t1 e f g h k w => Sys2Proof.Machine.execT1 e f g h k w s
  | .t2 a b c => Sys2Proof.Machine.execT2 a b c s
  | .roundfn v k w => Sys2Proof.Machine.execRoundfn v k w s
  | .compress h blk => Sys2Proof.Machine.execCompress h blk s
  | .hashblocks h blks => Sys2Proof.Machine.execHashblocks h blks s
  | .pad m => Sys2Proof.Machine.execPad m s
  | .computeDigest m => Sys2Proof.Machine.execComputeDigest m s

end Sys2Proof.Machine
end

