-- ==== Sys2Proof/WellFormed.lean ====
section
/-! DEFINITION. Which operations are well formed: the operand ranges the spec states. -/

namespace Sys2Proof

/-- ROTR and SHR: `1 <= n <= 31` (40 R102, R103). -/
def shiftAmountOk (n : Nat) : Bool := decide (1 ≤ n) && decide (n ≤ 31)

/-- PAD and COMPUTE_DIGEST: fewer than 2^61 bytes (41 R128). -/
def messageOk (m : List Byte) : Bool := decide (m.length < Config.maxMessageBytes)

/-- The operand checks of one operation; every other operand value is legal (60 R192). -/
def Instr.wellFormed : Instr → Bool
  | .nop => true
  | .init => true
  | .block _ => true
  | .rsvd => true
  | .hold => true
  | .load _ => true
  | .round => true
  | .update => true
  | .reset => true
  | .add32 _ _ => true
  | .xor _ _ => true
  | .and _ _ => true
  | .not _ => true
  | .rotr _ n => shiftAmountOk n
  | .shr _ n => shiftAmountOk n
  | .lsigma0 _ => true
  | .lsigma1 _ => true
  | .usigma0 _ => true
  | .usigma1 _ => true
  | .ch _ _ _ => true
  | .maj _ _ _ => true
  | .sched _ => true
  | .t1 _ _ _ _ _ _ => true
  | .t2 _ _ _ => true
  | .roundfn _ _ _ => true
  | .compress _ _ => true
  | .hashblocks _ _ => true
  | .pad m => messageOk m
  | .computeDigest m => messageOk m

end Sys2Proof
end

