-- ==== Sys2Proof/Decode.lean ====
section
/-! DEFINITION. The command word, the micro-operation selector and the reset pin: the decoder, total and rejecting
by name, and after it the encoder (spec/30_encoding.md R81, R85, R87; spec/10_state.md R26). -/

namespace Sys2Proof

/-- The four formats of the opcode table (30 R85). -/
inductive Format
  | cmd
  | micro
  | pin
  | func
  deriving DecidableEq, Repr

/-- What selects one operation, in the three formats that have an encoding (30 R85). -/
inductive CodeWord
  /-- The opcode on `cmd_op` and the operand on `block_in`, presented together (30 R81). -/
  | cmd (op : BitVec 2) (blk : Block)
  /-- The 5-bit selector `phase ‖ cmd_valid ‖ cmd_op` of an edge with `rst = 0`, and `block_in` beside it (30 R85). -/
  | micro (sel : BitVec 5) (blk : Block)
  /-- The pin `rst` (30 R85). -/
  | pin (rst : BitVec 1)
  deriving DecidableEq, Repr

/-- Why a word or a byte string is not an operation. -/
inductive Reject
  /-- `phase = 0b11`: matches no row (30 R85, 10 R26). -/
  | phaseUnused
  /-- `rst = 0` selects nothing by itself (30 R85). -/
  | pinLow
  /-- Not the number of bytes the format has (30 R88). -/
  | wrongLength
  /-- A bit above the format's own is set in the first byte. -/
  | highBits
  /-- FUNC operations have no bit encoding (30 R85). -/
  | noEncoding
  deriving DecidableEq, Repr

/-- The code of each phase on `sel[4:3]` (10 R26). -/
def Phase.code : Phase → BitVec 2
  | .idle => 0b00#2
  | .round => 0b01#2
  | .update => 0b10#2

/-- The phase of a code; `0b11` is none (10 R26). -/
def Phase.ofCode (c : BitVec 2) : Option Phase :=
  if c = 0b00#2 then some .idle
  else if c = 0b01#2 then some .round
  else if c = 0b10#2 then some .update
  else none

/-- Reads `op` and nothing else; the four values are exhaustive (30 R81). -/
def decodeCmd (op : BitVec 2) (blk : Block) : Instr :=
  if op = 0b00#2 then .nop
  else if op = 0b01#2 then .init
  else if op = 0b10#2 then .block blk
  else .rsvd

/-- The command an IDLE edge performs: BLOCK's first edge is LOAD (30 R87). -/
def decodeOffer (op : BitVec 2) (blk : Block) : Instr :=
  if op = 0b00#2 then .nop
  else if op = 0b01#2 then .init
  else if op = 0b10#2 then .load blk
  else .rsvd

/-- Which micro-operation an edge with `rst = 0` performs (30 R87). -/
def decodeMicro (sel : BitVec 5) (blk : Block) : Except Reject Instr :=
  match Phase.ofCode (sel.extractLsb' 3 2) with
  | some .idle => .ok (if sel.getLsbD 2 then decodeOffer (sel.extractLsb' 0 2) blk else .hold)
  | some .round => .ok .round
  | some .update => .ok .update
  | none => .error .phaseUnused

/-- The decoder. -/
def decode : CodeWord → Except Reject Instr
  | .cmd op blk => .ok (decodeCmd op blk)
  | .micro sel blk => decodeMicro sel blk
  | .pin rst => if rst = 1#1 then .ok .reset else .error .pinLow

/-- The command seen as one 514-bit word `cmd_op ‖ block_in` (30 R81). -/
def cmdWord (op : BitVec 2) (blk : Block) : BitVec 514 := op ++ blk

/-- A 514-bit command word taken apart: `op` on [513:512], `blk` on [511:0] (30 R81). -/
def CodeWord.ofCmdWord (w : BitVec 514) : CodeWord := .cmd (w.extractLsb' 512 2) (w.extractLsb' 0 512)

/-! The byte form. A command or selector word is its first byte (the opcode, or the selector, in the low bits) and
then the 64 bytes of the block in order; the pin is one byte (DESIGN CHOICE, safe: log 10). -/

/-- The word a byte string of a format stands for; total on any bytes. -/
def CodeWord.ofBytes : Format → List Byte → Except Reject CodeWord
  | .cmd, bs =>
    if bs.length ≠ 65 then .error .wrongLength
    else if 4 ≤ (bs.headD 0).toNat then .error .highBits
    else .ok (.cmd ((bs.headD 0).extractLsb' 0 2) (Machine.blockOfBytes bs.tail))
  | .micro, bs =>
    if bs.length ≠ 65 then .error .wrongLength
    else if 32 ≤ (bs.headD 0).toNat then .error .highBits
    else .ok (.micro ((bs.headD 0).extractLsb' 0 5) (Machine.blockOfBytes bs.tail))
  | .pin, bs =>
    if bs.length ≠ 1 then .error .wrongLength
    else if 2 ≤ (bs.headD 0).toNat then .error .highBits
    else .ok (.pin ((bs.headD 0).extractLsb' 0 1))
  | .func, _ => .error .noEncoding

/-- The decoder on bytes, total. -/
def decodeBytes (f : Format) (bs : List Byte) : Except Reject Instr :=
  (CodeWord.ofBytes f bs).bind decode

/-! The opcode table's rows of the selector format, as data (30 R85): the decoder above agrees with them
(Laws/Decode.lean). -/

/-- One row: its mnemonic, `match` and `mask` (30 R85). -/
structure MicroRow where
  mnemonic : String
  value : BitVec 5
  mask : BitVec 5
  deriving DecidableEq, Repr

/-- The four MICRO rows and the three one-edge commands in IDLE (30 R85). -/
def microRows : List MicroRow :=
  [⟨"HOLD", 0b00000, 0b11100⟩, ⟨"LOAD", 0b00110, 0b11111⟩, ⟨"ROUND", 0b01000, 0b11000⟩,
   ⟨"UPDATE", 0b10000, 0b11000⟩, ⟨"NOP", 0b00100, 0b11111⟩, ⟨"INIT", 0b00101, 0b11111⟩,
   ⟨"RSVD", 0b00111, 0b11111⟩]

/-- A selector matches a row. -/
def MicroRow.matches (r : MicroRow) (sel : BitVec 5) : Bool := sel &&& r.mask == r.value

/-! The encoder. -/

/-- The word of an operation, don't-care bits zero; FUNC operations have none (30 R81, R85). -/
def encode : Instr → Option CodeWord
  | .nop => some (.cmd 0b00 0)
  | .init => some (.cmd 0b01 0)
  | .block blk => some (.cmd 0b10 blk)
  | .rsvd => some (.cmd 0b11 0)
  | .hold => some (.micro 0b00000 0)
  | .load blk => some (.micro 0b00110 blk)
  | .round => some (.micro 0b01000 0)
  | .update => some (.micro 0b10000 0)
  | .reset => some (.pin 1)
  | .add32 _ _ => none
  | .xor _ _ => none
  | .and _ _ => none
  | .not _ => none
  | .rotr _ _ => none
  | .shr _ _ => none
  | .lsigma0 _ => none
  | .lsigma1 _ => none
  | .usigma0 _ => none
  | .usigma1 _ => none
  | .ch _ _ _ => none
  | .maj _ _ _ => none
  | .sched _ => none
  | .t1 _ _ _ _ _ _ => none
  | .t2 _ _ _ => none
  | .roundfn _ _ _ => none
  | .compress _ _ => none
  | .hashblocks _ _ => none
  | .pad _ => none
  | .computeDigest _ => none

/-- The format of an operation's row (30 R85). -/
def Instr.format : Instr → Format
  | .nop => .cmd
  | .init => .cmd
  | .block _ => .cmd
  | .rsvd => .cmd
  | .hold => .micro
  | .load _ => .micro
  | .round => .micro
  | .update => .micro
  | .reset => .pin
  | .add32 _ _ => .func
  | .xor _ _ => .func
  | .and _ _ => .func
  | .not _ => .func
  | .rotr _ _ => .func
  | .shr _ _ => .func
  | .lsigma0 _ => .func
  | .lsigma1 _ => .func
  | .usigma0 _ => .func
  | .usigma1 _ => .func
  | .ch _ _ _ => .func
  | .maj _ _ _ => .func
  | .sched _ => .func
  | .t1 _ _ _ _ _ _ => .func
  | .t2 _ _ _ => .func
  | .roundfn _ _ _ => .func
  | .compress _ _ => .func
  | .hashblocks _ _ => .func
  | .pad _ => .func
  | .computeDigest _ => .func

/-- The format of a word. -/
def CodeWord.format : CodeWord → Format
  | .cmd _ _ => .cmd
  | .micro _ _ => .micro
  | .pin _ => .pin

/-- The byte form of a word. -/
def CodeWord.toBytes : CodeWord → List Byte
  | .cmd op blk => op.setWidth 8 :: Machine.blockBytes blk
  | .micro sel blk => sel.setWidth 8 :: Machine.blockBytes blk
  | .pin rst => [rst.setWidth 8]

/-! The table's own numbering of words. -/

/-- The first `k` bytes of `w`, byte 0 the least significant. -/
def lowBytes : Nat → Nat → List Byte
  | 0, _ => []
  | k + 1, w => BitVec.ofNat 8 w :: lowBytes k (w / 256)

/-- The word that `nbits` bits `w`, numbered as spec/opcode_table.json numbers them, stand for, the bits above
`nbits` (the block) zero. The three formats share the low bits, so a value below 4 is read as a command and a larger
one as a selector; a width of exactly 1, 2 or 5 bits names its format; 514 bits or their 65 bytes are R81's command
word; any other width is the byte form, its first byte lowest (DESIGN CHOICE, safe: log 10). -/
def tableCodeWord (nbits w : Nat) : Except Reject CodeWord :=
  if nbits = 1 then .ok (.pin (BitVec.ofNat 1 w))
  else if nbits = 2 then .ok (.cmd (BitVec.ofNat 2 w) 0)
  else if nbits = 5 then .ok (.micro (BitVec.ofNat 5 w) 0)
  else if nbits ≤ 8 then
    if w < 4 then .ok (.cmd (BitVec.ofNat 2 w) 0)
    else if w < 32 then .ok (.micro (BitVec.ofNat 5 w) 0)
    else .error .highBits
  else if nbits = 514 ∨ nbits = 520 then
    if w < 2 ^ 514 then .ok (CodeWord.ofCmdWord (BitVec.ofNat 514 w)) else .error .highBits
  else if w % 256 < 4 then CodeWord.ofBytes .cmd (lowBytes 65 w)
  else CodeWord.ofBytes .micro (lowBytes 65 w)

/-- The instruction the decoder reads from `nbits` bits `w` numbered as the opcode table numbers them. -/
def decodeTableWord (nbits w : Nat) : Option Instr :=
  ((tableCodeWord nbits w).bind decode).toOption

end Sys2Proof
end

