-- ==== Sys2Proof/Machine/Script.lean ====
section
/-! DEFINITION. The host's side of a step: what it drives at the next edge, or what it does without an edge
(spec/30_encoding.md R89, R90; spec/44_commands_and_digest.md R175; spec/41_framer_padding.md R130, R132), and which
word the core sees. -/

namespace Sys2Proof.Machine

/-- What the host's next action comes to. -/
inductive Fetched
  /-- One operation is selected by this word; `rest` is what the host does after it. -/
  | word (cw : CodeWord) (rest : List Drive)
  /-- One row of the table is applied by itself. -/
  | direct (i : Instr) (rest : List Drive)
  /-- The host acts alone: no clock edge. -/
  | host (o : Host.Outcome State Fault Refusal)

/-- `rst = 0, cmd_valid = 0`; the other inputs are ignored then (44 R174). -/
def idlePins : Pins := ⟨false, false, 0, 0⟩

/-- One command offered (30 R89). -/
def offerPins (op : BitVec 2) (blk : Block) : Pins := ⟨false, true, op, blk⟩

/-- `rst = 1`; the other inputs are don't-cares (30 R89, 70 R210). -/
def resetPins : Pins := ⟨true, false, 0, 0⟩

/-- `sel = phase ‖ cmd_valid ‖ cmd_op` (30 R85). -/
def selector (ph : Phase) (p : Pins) : BitVec 5 := ph.code ++ BitVec.ofBool p.cmdValid ++ p.cmdOp

/-- What one edge selects its operation by: `rst = 1` overrides every other row (30 R85, 60 R196). -/
def edgeWord (ph : Phase) (p : Pins) : CodeWord :=
  if p.rst then .pin 1 else .micro (selector ph p) p.blockIn

/-- An edge with these inputs. -/
def fetchEdge (s : State) (p : Pins) (rest : List Drive) : Fetched := .word (edgeWord s.regs.phase p) rest

/-- What `HASH M` expands to (30 R90). -/
def hashScript (m : List Byte) : List Drive :=
  .offer 0b01 0 :: ((pad m).map (fun b => .offer 0b10 b) ++ [.wait])

/-- The BLOCK commands that deliver the FRAMER's blocks, one per block, in order (41 R130). -/
def deliverBlocks (bs : List Block) : List Drive := bs.map (fun b => .offer 0b10 b)

/-- The host's next action. With nothing left to do it drives idle edges (DESIGN CHOICE: log 2). -/
def fetch (s : State) : Fetched :=
  match s.todo with
  | [] => fetchEdge s idlePins []
  | .reset :: rest => fetchEdge s resetPins rest
  | .offer op blk :: rest =>
    if s.regs.ready then fetchEdge s (offerPins op blk) rest else fetchEdge s idlePins s.todo
  | .idle 0 :: rest => .host (.next (s.setTodo rest))
  | .idle (n + 1) :: rest => fetchEdge s idlePins (.idle n :: rest)
  | .wait :: rest => if s.regs.ready then .host (.next (s.setTodo rest)) else fetchEdge s idlePins s.todo
  | .expect e :: rest =>
    if e.holds s.regs then .host (.next (s.setTodo rest)) else .host (.fault .expectationFailed)
  | .hash m :: rest =>
    if m.length < Config.maxMessageBytes then .host (.next (s.setTodo (hashScript m ++ rest)))
    else .host (.refused .messageTooLong)
  | .digest :: rest =>
    if s.regs.ready && s.regs.digestValid then .host (.next ((s.setTodo rest).setSampled s.regs.digest))
    else fetchEdge s idlePins s.todo
  | .framerInit :: rest => .host (.next ((s.setTodo rest).setFramer framerStart))
  | .framerUpdate chunk :: rest =>
    if updateFits s.framer chunk then
      .host (.next ((s.setTodo (deliverBlocks (updateBlocks s.framer chunk) ++ rest)).setFramer
        (framerUpdate s.framer chunk)))
    else .host (.refused .messageTooLong)
  | .framerFinalize :: rest =>
    if finalizeFits s.framer then
      .host (.next ((s.setTodo (deliverBlocks (finalBlocks s.framer) ++ rest)).setFramer (framerFinish s.framer)))
    else .host (.refused .messageTooLong)
  | .edge p :: rest => fetchEdge s p rest
  | .command op blk :: rest =>
    if s.regs.ready then .word (.cmd op blk) rest else fetchEdge s idlePins s.todo
  | .apply i :: rest => .direct i rest

/-- The inputs an edge's selector stands for. -/
def pinsOf (sel : BitVec 5) (blk : Block) : Pins := ⟨false, sel.getLsbD 2, sel.extractLsb' 0 2, blk⟩

/-- A word put where the next step takes it: in front of what the host does next, in the phase it needs (a command
is taken in IDLE; a selector names its phase). A word no edge can form changes nothing (log 11). -/
def placeWord (s : State) : CodeWord → State
  | .cmd op blk => (s.setRegs { s.regs with phase := .idle }).setTodo (.command op blk :: s.todo)
  | .micro sel blk =>
    match Phase.ofCode (sel.extractLsb' 3 2) with
    | some ph => (s.setRegs { s.regs with phase := ph }).setTodo (.edge (pinsOf sel blk) :: s.todo)
    | none => s
  | .pin rst => if rst = 1#1 then s.setTodo (.edge resetPins :: s.todo) else s

end Sys2Proof.Machine
end

