-- ==== Sys2Proof/Machine/Step.lean ====
section
/-! DEFINITION. One step: the host's next action; if it is a clock edge or a command, the operation that the word
selects is decoded and executed (spec/60_exceptions.md R196; spec/00_scope.md R16). -/

namespace Sys2Proof.Machine

/-- The operation a word selects, executed. -/
def runWord (cw : CodeWord) (s : State) : Host.Outcome State Fault Refusal :=
  match decode cw with
  | .ok i => exec i s
  | .error _ => .refused .noOperation

/-- One step of the machine. -/
def step (s : State) : Host.Outcome State Fault Refusal :=
  match fetch s with
  | .word cw rest => runWord cw (s.setTodo rest)
  | .direct i rest => exec i (s.setTodo rest)
  | .host o => o

/-- `s` with the instruction of `nbits` bits `w`, numbered as the opcode table numbers them, where the next step
takes it (log 11). -/
def State.withFetchWord (s : State) (nbits w : Nat) : State :=
  match tableCodeWord nbits w with
  | .ok cw => placeWord s cw
  | .error _ => s

end Sys2Proof.Machine
end

