-- ==== Sys2Proof/Safety.lean ====
section
/-! DEFINITION. What counts as a safe or a finished run, and the invariants the statements are made in
(spec/10_state.md R27, R28, R29; spec/43_compression_round_fsm.md R160; spec/44_commands_and_digest.md R180, R184;
spec/60_exceptions.md R193). -/

namespace Sys2Proof.Machine

/-- No fault recorded: the premise of every claim about a command sequence (60 R193). -/
def Faultless (s : State) : Prop := s.regs.err = false

/-- When the host may sample `digest` (70 R219). -/
def DigestReady (s : State) : Prop := s.regs.ready = true ∧ s.regs.digestValid = true

/-- An accept: `rst = 0`, `cmd_valid = 1` and `ready = 1` (44 R175). -/
def Accepts (r : Regs) (p : Pins) : Prop := p.rst = false ∧ p.cmdValid = true ∧ r.ready = true

/-- The host's own state and the result latch are as before: the frame of an operation on the core. -/
def HostKept (s t : State) : Prop :=
  t.todo = s.todo ∧ t.framer = s.framer ∧ t.sampled = s.sampled ∧ t.result = s.result

/-- `n` steps of the machine, up to the first stop: the host's own run of `Sys2Proof.core`. -/
def run (n : Nat) (s : State) : Host.Outcome State Fault Refusal := Host.Core.run Sys2Proof.core n s

/-- What the host has of the digest computation under way (44 R184). -/
structure HashRun where
  /-- The blocks the host has had accepted since INIT or RESET, in order. -/
  accepted : List Block
  /-- The digest the host has sampled since it last had anything accepted that writes `H`. -/
  sampled : Option Digest
  deriving DecidableEq, Repr

/-- A computation just begun (44 R180). -/
def HashRun.start : HashRun := ⟨[], none⟩

/-- One more block accepted; a digest sampled before it is not the digest any more (44 R184). -/
def HashRun.accept (b : Block) (c : HashRun) : HashRun := ⟨c.accepted ++ [b], none⟩

/-- The digest sampled (44 R184). -/
def HashRun.sample (d : Digest) (c : HashRun) : HashRun := ⟨c.accepted, some d⟩

/-- What an operation that an edge or a command selects makes of the computation: RESET and INIT begin one, LOAD and
BLOCK have their block accepted (44 R175, R180). -/
def trackOperation (r : Regs) (i : Instr) (c : Option HashRun) : Option HashRun :=
  match i with
  | .reset => some .start
  | .init => if r.phase = .idle then some .start else c
  | .load b | .block b => if r.phase = .idle then c.map (·.accept b) else c
  | .nop | .rsvd | .hold | .round | .update | .add32 .. | .xor .. | .and .. | .not .. | .rotr .. | .shr ..
  | .lsigma0 .. | .lsigma1 .. | .usigma0 .. | .usigma1 .. | .ch .. | .maj .. | .sched .. | .t1 .. | .t2 ..
  | .roundfn .. | .compress .. | .hashblocks .. | .pad .. | .computeDigest .. => c

/-- What the next step makes of the computation. DIGEST samples; a row applied by itself that is no FUNC row is
nothing a host does at the ports, so no computation is spoken of after it (log 4, log 18). -/
def trackStep (s : State) (c : Option HashRun) : Option HashRun :=
  match fetch s with
  | .word cw _ =>
    match decode cw with
    | .ok i => trackOperation s.regs i c
    | .error _ => c
  | .direct i _ => if i.format = .func then c else none
  | .host _ =>
    match s.todo with
    | .digest :: _ => c.map (·.sample s.regs.digest)
    | _ => c

/-- What `n` steps make of the computation, up to the first stop. -/
def trackRun : Nat → State → Option HashRun → Option HashRun
  | 0, _, c => c
  | n + 1, s, c =>
    match step s with
    | .next t => trackRun n t (trackStep s c)
    | .fault _ => c
    | .refused _ => c

/-- The digest computation of `m` is over in `t`, after `n` steps from `s`: within these steps the host has had every
block of `pad(M)` accepted since INIT or RESET, in order and no other, and has sampled `digest` since; and `ready = 1`,
`digest_valid = 1`, `err = 0` (44 R184; 60 R193: a state with `err = 1` is final to none). What happened before `s`
does not count (log 18). -/
def RunOver (m : List Byte) (n : Nat) (s t : State) : Prop :=
  run n s = .next t ∧ m.length < Config.maxMessageBytes ∧
  trackRun n s none = some ⟨pad m, some t.regs.digest⟩ ∧ DigestReady t ∧ Faultless t

/-- A state some host script leads to from reset. -/
def Reachable (s : State) : Prop :=
  ∃ (script : List Drive) (n : Nat), run n (State.reset.setTodo script) = .next s

/-- A run of `n` steps that no fault and no refusal ends. -/
def RunsSafely (n : Nat) (s : State) : Prop := ∃ t, run n s = .next t

/-- "In IDLE and UPDATE `t` is always 0" (10 R27), and `dv` says that no block is in progress (10 R28). -/
def SequencerInv (r : Regs) : Prop := (r.phase ≠ .round → r.t = 0) ∧ (r.dv = true → r.phase = .idle)

/-- What the registers hold while a block is in progress: some block's schedule, as far as it is derived, and the
working variables after the rounds done, over an `H` that has not changed (43 R160, 42 R143). -/
def BlockInProgress (r : Regs) : Prop :=
  match r.phase with
  | .idle => True
  | .round =>
    ∃ blk, (∀ j (hj : j < 64), j < max 16 r.t.toNat → r.w[j] = (sched blk)[j]) ∧
      r.v = varsAfter r.h (sched blk) r.t.toNat
  | .update => ∃ blk, r.w = sched blk ∧ r.v = varsAfter r.h (sched blk) 64

/-- `H` is the fold of some blocks from `IV`, at least one where `dv` says so (44 R180, 10 R28). -/
def Chained (r : Regs) : Prop := ∃ blks, r.h = hashBlocks iv blks ∧ (r.dv = true → blks ≠ [])

/-- The residual partial block is shorter than a block (41 R132). -/
def FramerInv (f : Framer) : Prop := f.residual.length < 64

end Sys2Proof.Machine
end

