-- ==== Sys2Proof/Certificates/Slice0/Obligations.lean ====
section
/-! DEFINITION. The statements for the provers. Where a statement names a choice of the model's own, its docstring
says so and names the log entry. -/

open Sys2Proof Sys2Proof.Machine

/-! ## Encoding -/

/-- Every operation that has an encoding is decoded back from its word and from its bytes, with every operand at
every value; the byte form and the 514-bit command word drop no bit; exactly the FUNC rows have no word (30 R81, R85;
the byte form is the model's, log 10). -/
def Obligations.EncodedInstructionDecodesBack : Prop :=
  (∀ i cw, encode i = some cw →
    cw.format = i.format ∧ decode cw = .ok i ∧ decodeBytes i.format cw.toBytes = .ok i) ∧
  (∀ i, encode i = none ↔ i.format = .func) ∧
  (∀ cw : CodeWord, CodeWord.ofBytes cw.format cw.toBytes = .ok cw) ∧
  (∀ op blk, CodeWord.ofCmdWord (cmdWord op blk) = .cmd op blk) ∧
  (∀ w : BitVec 514, cmdWord (w.extractLsb' 512 2) (w.extractLsb' 0 512) = w)

/-- The command decoder reads `op` and nothing else, and is total (30 R81). -/
def Obligations.CommandDecoderReadsOpOnly : Prop :=
  ∀ blk : Block,
    decode (CodeWord.ofCmdWord (cmdWord 0b00 blk)) = .ok .nop ∧
    decode (CodeWord.ofCmdWord (cmdWord 0b01 blk)) = .ok .init ∧
    decode (CodeWord.ofCmdWord (cmdWord 0b10 blk)) = .ok (.block blk) ∧
    decode (CodeWord.ofCmdWord (cmdWord 0b11 blk)) = .ok .rsvd

/-- What an edge performs is selected by `rst`, `phase` and, in IDLE, the offered command, over every value of the
inputs (30 R87). -/
def Obligations.EdgeSelectsByPhaseAndOffer : Prop :=
  ∀ (ph : Phase) (p : Pins),
    (p.rst = true → decode (edgeWord ph p) = .ok .reset) ∧
    (p.rst = false → ph = .round → decode (edgeWord ph p) = .ok .round) ∧
    (p.rst = false → ph = .update → decode (edgeWord ph p) = .ok .update) ∧
    (p.rst = false → ph = .idle → p.cmdValid = false → decode (edgeWord ph p) = .ok .hold) ∧
    (p.rst = false → ph = .idle → p.cmdValid = true →
      (p.cmdOp = 0b00 → decode (edgeWord ph p) = .ok .nop) ∧
      (p.cmdOp = 0b01 → decode (edgeWord ph p) = .ok .init) ∧
      (p.cmdOp = 0b10 → decode (edgeWord ph p) = .ok (.load p.blockIn)) ∧
      (p.cmdOp = 0b11 → decode (edgeWord ph p) = .ok .rsvd))

/-- A selector is decoded to the row of the opcode table whose `match` and `mask` it meets, and one with
`phase = 0b11` to none (30 R85). -/
def Obligations.SelectorDecodesToItsTableRow : Prop :=
  ∀ (sel : BitVec 5) (blk : Block),
    (sel &&& 0b11100 = 0b00000 → decode (.micro sel blk) = .ok .hold) ∧
    (sel = 0b00110 → decode (.micro sel blk) = .ok (.load blk)) ∧
    (sel &&& 0b11000 = 0b01000 → decode (.micro sel blk) = .ok .round) ∧
    (sel &&& 0b11000 = 0b10000 → decode (.micro sel blk) = .ok .update) ∧
    (sel = 0b00100 → decode (.micro sel blk) = .ok .nop) ∧
    (sel = 0b00101 → decode (.micro sel blk) = .ok .init) ∧
    (sel = 0b00111 → decode (.micro sel blk) = .ok .rsvd) ∧
    (sel &&& 0b11000 = 0b11000 → decode (.micro sel blk) = .error .phaseUnused)

/-- Words written out from the spec's own table of encodings decode to what they stand for
(95_test_vectors.md 6.9). -/
def Obligations.WrittenOutWordsDecode : Prop :=
  decode (CodeWord.ofCmdWord 0x261626380000000000000000000000000000000000000000000000000000000000000000000000000000000000000000000000000000000000000000000000018#514) =
    .ok (.block 0x61626380000000000000000000000000000000000000000000000000000000000000000000000000000000000000000000000000000000000000000000000018#512) ∧
  decode (CodeWord.ofCmdWord 0x1ffffffffffffffffffffffffffffffffffffffffffffffffffffffffffffffffffffffffffffffffffffffffffffffffffffffffffffffffffffffffffffffff#514) =
    .ok .init ∧
  decode (.micro 0b00110 7) = .ok (.load 7) ∧
  decode (.pin 1) = .ok .reset ∧
  decodeTableWord 2 0b11 = some .rsvd

/-! ## The step -/

/-- A step runs the decoded instruction: where the host's next action puts a word before the core that decodes to
`i`, the step is `exec` of `i` with the host's list advanced; and where it applies a row by itself, of that row
(the host's list is the model's, log 2 and log 4). -/
def Obligations.StepRunsTheDecodedInstruction : Prop :=
  (∀ s cw rest i, fetch s = .word cw rest → decode cw = .ok i → step s = exec i (s.setTodo rest)) ∧
  (∀ s i rest, fetch s = .direct i rest → step s = exec i (s.setTodo rest))

/-- An instruction placed by its table word is what the very next step runs, from any state, in the phase it fires in:
ROUND in ROUND and UPDATE in UPDATE, which their selectors name; RESET in the state's own phase; every command and
every other selector in IDLE (log 11). -/
def Obligations.PlacedWordRunsNext : Prop :=
  ∀ (s : State) (nbits w : Nat) (i : Instr), decodeTableWord nbits w = some i →
    step (s.withFetchWord nbits w) = exec i (s.setRegs { s.regs with phase :=
      if i = .round then .round else if i = .update then .update else if i = .reset then s.regs.phase else .idle })

/-- At each rising edge exactly one operation happens, in the spec's priority (60 R196). -/
def Obligations.EdgePerformsOneOperationByPriority : Prop :=
  ∀ (s : State) (p : Pins) (rest : List Drive), s.todo = .edge p :: rest →
    (p.rst = true → step s = exec .reset (s.setTodo rest)) ∧
    (p.rst = false → s.regs.phase = .round → step s = exec .round (s.setTodo rest)) ∧
    (p.rst = false → s.regs.phase = .update → step s = exec .update (s.setTodo rest)) ∧
    (p.rst = false → s.regs.phase = .idle →
      (p.cmdValid = false → step s = exec .hold (s.setTodo rest)) ∧
      (p.cmdValid = true → p.cmdOp = 0b00 → step s = exec .nop (s.setTodo rest)) ∧
      (p.cmdValid = true → p.cmdOp = 0b01 → step s = exec .init (s.setTodo rest)) ∧
      (p.cmdValid = true → p.cmdOp = 0b10 → step s = exec (.load p.blockIn) (s.setTodo rest)) ∧
      (p.cmdValid = true → p.cmdOp = 0b11 → step s = exec .rsvd (s.setTodo rest)))

/-- The script items of the notation come to edges: RESET to one with `rst = 1`; a command to waiting edges until
`ready` and then one that offers it; IDLE and WAIT to edges with `rst = 0, cmd_valid = 0`; EXPECT, where it holds, to
none (30 R89). Inputs that an item leaves open are quantified over. -/
def Obligations.ScriptItemsDriveEdges : Prop :=
  ∀ (s : State) (rest : List Drive),
    (s.todo = .reset :: rest → ∀ v op blk, step s = step (s.setTodo (.edge ⟨true, v, op, blk⟩ :: rest))) ∧
    (∀ op blk, s.todo = .offer op blk :: rest →
      (s.regs.ready = true → step s = step (s.setTodo (.edge ⟨false, true, op, blk⟩ :: rest))) ∧
      (s.regs.ready = false → ∀ op' blk', step s = step (s.setTodo (.edge ⟨false, false, op', blk'⟩ :: s.todo)))) ∧
    (s.todo = .idle 0 :: rest → step s = .next (s.setTodo rest)) ∧
    (∀ n, s.todo = .idle (n + 1) :: rest →
      ∀ op' blk', step s = step (s.setTodo (.edge ⟨false, false, op', blk'⟩ :: .idle n :: rest))) ∧
    (s.todo = .wait :: rest →
      (s.regs.ready = true → step s = .next (s.setTodo rest)) ∧
      (s.regs.ready = false → ∀ op' blk', step s = step (s.setTodo (.edge ⟨false, false, op', blk'⟩ :: s.todo)))) ∧
    (∀ e, s.todo = .expect e :: rest → e.holds s.regs = true → step s = .next (s.setTodo rest))

/-- The pseudo-instructions: HASH expands to INIT, one BLOCK per block of `pad(M)` and WAIT; DIGEST reads the port
when `ready = 1` and `digest_valid = 1` (30 R90), driving idle edges until then (log 17). -/
def Obligations.PseudoInstructionsExpand : Prop :=
  ∀ (s : State) (rest : List Drive),
    (∀ m, s.todo = .hash m :: rest → m.length < 2 ^ 61 →
      step s = .next (s.setTodo (.offer 0b01 0 :: ((pad m).map (fun b => .offer 0b10 b) ++ .wait :: rest)))) ∧
    (s.todo = .digest :: rest →
      (s.regs.ready = true → s.regs.digestValid = true →
        ∃ t, step s = .next t ∧ t.sampled = some s.regs.digest ∧ t.todo = rest ∧ t.regs = s.regs ∧
          t.framer = s.framer ∧ t.result = s.result) ∧
      (s.regs.ready = false ∨ s.regs.digestValid = false →
        step s = step (s.setTodo (.edge idlePins :: s.todo))))

/-- A step stops only at an EXPECT that does not hold, or where a message of 2^61 bytes or more is to be padded; in
particular no clock edge and no command stops it (60 R190; log 7, log 14). -/
def Obligations.StepStopsOnlyWhereNamed : Prop :=
  ∀ s : State,
    (∃ t, step s = .next t) ∨
    (step s = .fault .expectationFailed ∧ ∃ e rest, s.todo = .expect e :: rest ∧ e.holds s.regs = false) ∨
    (step s = .refused .messageTooLong ∧
      ((∃ m rest, s.todo = .hash m :: rest ∧ 2 ^ 61 ≤ m.length) ∨
       (∃ m rest, (s.todo = .apply (.pad m) :: rest ∨ s.todo = .apply (.computeDigest m) :: rest) ∧
         2 ^ 61 ≤ m.length) ∨
       (∃ c rest, s.todo = .framerUpdate c :: rest ∧ 2 ^ 64 ≤ s.framer.counter.toNat + 8 * (s.framer.residual ++ c).length) ∨
       (∃ rest, s.todo = .framerFinalize :: rest ∧
         2 ^ 64 ≤ s.framer.counter.toNat + 8 * s.framer.residual.length)))

/-! ## The command port -/

/-- `cmd_op` and `block_in` are sampled only at an accept: at every other edge their values change nothing, a
reserved opcode that is offered but not accepted raises nothing, and an offer that is not accepted leaves nothing
queued (30 R82). -/
def Obligations.CommandInputsMatterOnlyAtAccept : Prop :=
  ∀ (s : State) (p q : Pins) (rest : List Drive), p.rst = q.rst → ¬ Accepts s.regs p → ¬ Accepts s.regs q →
    step (s.setTodo (.edge p :: rest)) = step (s.setTodo (.edge q :: rest)) ∧
    ∃ t, step (s.setTodo (.edge p :: rest)) = .next t ∧ t.todo = rest ∧ (t.regs.err = true → s.regs.err = true)

/-- `block_in` is a don't-care under NOP, INIT and the reserved opcode (30 R86). -/
def Obligations.BlockInputIgnoredExceptByBlock : Prop :=
  ∀ (s : State) (op : BitVec 2) (b b' : Block) (rest : List Drive), op ≠ 0b10 →
    step (s.setTodo (.edge ⟨false, true, op, b⟩ :: rest)) = step (s.setTodo (.edge ⟨false, true, op, b'⟩ :: rest))

/-- NOP accepted, and an idle edge with no command, change no register: whatever else is on the inputs, the step
answers the same state with the host's list advanced (44 R170, R174). -/
def Obligations.NopAndHoldChangeNothing : Prop :=
  (∀ s, exec .nop s = .next s ∧ exec .hold s = .next s) ∧
  ∀ (s : State) (op : BitVec 2) (blk : Block) (rest : List Drive), s.regs.phase = .idle →
    step (s.setTodo (.edge ⟨false, true, 0b00, blk⟩ :: rest)) = .next (s.setTodo rest) ∧
    step (s.setTodo (.edge ⟨false, false, op, blk⟩ :: rest)) = .next (s.setTodo rest)

/-- INIT loads `IV` into all of `H`, clears `dv` and changes nothing else; directly after reset it changes nothing;
two in a row equal one; the edge that accepts it performs it, whatever is on `block_in` (44 R171). -/
def Obligations.InitLoadsIVAndClearsValid : Prop :=
  (∀ s : State, s.regs.phase = .idle →
    ∃ t, exec .init s = .next t ∧ (∀ k, t.regs.h.word k = romIV k) ∧ t.regs.dv = false ∧ t.regs.v = s.regs.v ∧
      t.regs.w = s.regs.w ∧ t.regs.phase = .idle ∧ t.regs.ready = true ∧ t.regs.t = s.regs.t ∧
      t.regs.err = s.regs.err ∧ HostKept s t ∧ exec .init t = .next t ∧
      ∀ blk rest, step (s.setTodo (.edge ⟨false, true, 0b01, blk⟩ :: rest)) = .next (t.setTodo rest)) ∧
  exec .init State.reset = .next State.reset

/-- BLOCK at command level: `H <- compress(H, blk)`, `dv <- 1`, `err` as it was, `ready` again (44 R172); what it
leaves in `V`, `W` and `t` is what its edges leave there (log 1). -/
def Obligations.BlockFoldsIntoHashState : Prop :=
  ∀ (s : State) (blk : Block), s.regs.phase = .idle →
    ∃ t, exec (.block blk) s = .next t ∧ t.regs.h = compress s.regs.h blk ∧ t.regs.dv = true ∧
      t.regs.err = s.regs.err ∧ t.regs.ready = true ∧ t.regs.t = 0 ∧ t.regs.w = sched blk ∧
      (∀ k, t.regs.h.word k = add32 (s.regs.h.word k) (t.regs.v.word k)) ∧ HostKept s t

/-- The reserved opcode raises IllegalCommand: `err <- 1` and nothing else, a second leaves it, and the core keeps
accepting commands; the edge that accepts it performs it, whatever is on `block_in` (44 R173, 60 R191). -/
def Obligations.ReservedOpcodeSetsErrOnly : Prop :=
  ∀ s : State, s.regs.phase = .idle →
    ∃ t, exec .rsvd s = .next t ∧ t.regs.err = true ∧ t.regs.cause = some .illegalCommand ∧
      faultCode t.regs.cause = 1 ∧ t.regs.h = s.regs.h ∧ t.regs.v = s.regs.v ∧ t.regs.w = s.regs.w ∧
      t.regs.phase = s.regs.phase ∧ t.regs.t = s.regs.t ∧ t.regs.dv = s.regs.dv ∧ t.regs.ready = true ∧
      HostKept s t ∧ exec .rsvd t = .next t ∧
      ∀ blk rest, step (s.setTodo (.edge ⟨false, true, 0b11, blk⟩ :: rest)) = .next (t.setTodo rest)

/-- A command offered while `ready = 0` has no effect and is not remembered: the edge does what it would have done
with no command, and the command's own operation does nothing (70 R220; the second is log 5). -/
def Obligations.BusyCommandsAreLost : Prop :=
  ∀ (s : State) (op : BitVec 2) (blk : Block) (rest : List Drive), s.regs.phase ≠ .idle →
    step (s.setTodo (.edge ⟨false, true, op, blk⟩ :: rest)) =
      step (s.setTodo (.edge ⟨false, false, 0, 0⟩ :: rest)) ∧
    exec .init s = .next s ∧ exec (.block blk) s = .next s ∧ exec .rsvd s = .next s

/-! ## The micro-operations and reset -/

/-- LOAD: what it writes, what it leaves, and the edge that performs it (43 R153). -/
def Obligations.LoadStartsTheBlock : Prop :=
  ∀ (s : State) (blk : Block), s.regs.phase = .idle →
    ∃ t, exec (.load blk) s = .next t ∧
      (∀ j (h : j < 16), t.regs.w[j] = blk.extractLsb' (480 - 32 * j) 32) ∧
      (∀ j (h : j < 64), 16 ≤ j → t.regs.w[j] = s.regs.w[j]) ∧
      (∀ k, t.regs.v.word k = s.regs.h.word k) ∧ t.regs.t = 0 ∧ t.regs.phase = .round ∧ t.regs.dv = false ∧
      t.regs.ready = false ∧ t.regs.h = s.regs.h ∧ t.regs.err = s.regs.err ∧ HostKept s t ∧
      ∀ rest, step (s.setTodo (.edge ⟨false, true, 0b10, blk⟩ :: rest)) = .next (t.setTodo rest)

/-- ROUND: what it writes, what it leaves, and the edge that performs it, whatever the command inputs (43 R155). -/
def Obligations.RoundPerformsOneRound : Prop :=
  ∀ s : State, s.regs.phase = .round →
    ∃ (t : State) (x : Word), exec .round s = .next t ∧
      (s.regs.t.toNat ≤ 15 → x = s.regs.w[s.regs.t.toNat]'s.regs.t.isLt ∧ t.regs.w = s.regs.w) ∧
      (∀ n (hn : n < 64), s.regs.t.toNat = n → 16 ≤ n →
        x = lowerSigma1 s.regs.w[n - 2] + s.regs.w[n - 7] + lowerSigma0 s.regs.w[n - 15] + s.regs.w[n - 16] ∧
        t.regs.w[n] = x ∧ ∀ j (hj : j < 64), j ≠ n → t.regs.w[j] = s.regs.w[j]) ∧
      t.regs.v = roundFn s.regs.v (romK s.regs.t) x ∧
      (s.regs.t = 63 → t.regs.phase = .update ∧ t.regs.t = 0) ∧
      (s.regs.t ≠ 63 → t.regs.phase = .round ∧ t.regs.t.toNat = s.regs.t.toNat + 1) ∧
      t.regs.h = s.regs.h ∧ t.regs.dv = s.regs.dv ∧ t.regs.err = s.regs.err ∧ HostKept s t ∧
      ∀ v op blk rest, step (s.setTodo (.edge ⟨false, v, op, blk⟩ :: rest)) = .next (t.setTodo rest)

/-- UPDATE: what it writes, what it leaves, and the edge that performs it, whatever the command inputs (43 R158). -/
def Obligations.UpdateFoldsBack : Prop :=
  ∀ s : State, s.regs.phase = .update →
    ∃ t, exec .update s = .next t ∧
      (∀ k, (t.regs.h.word k).toNat = ((s.regs.h.word k).toNat + (s.regs.v.word k).toNat) % 2 ^ 32) ∧
      t.regs.dv = true ∧ t.regs.phase = .idle ∧ t.regs.ready = true ∧ t.regs.v = s.regs.v ∧
      t.regs.w = s.regs.w ∧ t.regs.t = s.regs.t ∧ t.regs.err = s.regs.err ∧ HostKept s t ∧
      ∀ v op blk rest, step (s.setTodo (.edge ⟨false, v, op, blk⟩ :: rest)) = .next (t.setTodo rest)

/-- A rule whose guard does not hold fires nothing: LOAD outside IDLE, ROUND outside ROUND, UPDATE outside UPDATE
leave the whole state (00 R13; log 5). -/
def Obligations.UnfiredRulesKeepEverything : Prop :=
  ∀ (s : State) (blk : Block),
    (s.regs.phase ≠ .idle → exec (.load blk) s = .next s) ∧
    (s.regs.phase ≠ .round → exec .round s = .next s) ∧
    (s.regs.phase ≠ .update → exec .update s = .next s)

/-- RESET, in any state and whatever the other inputs: every register of the core at its reset value, `err`
cleared, `ready = 1`, the digest port at `IV`; a second changes nothing more (70 R210). -/
def Obligations.ResetWritesEveryRegister : Prop :=
  ∀ (s : State) (v : Bool) (op : BitVec 2) (blk : Block) (rest : List Drive),
    ∃ t, exec .reset s = .next t ∧ step (s.setTodo (.edge ⟨true, v, op, blk⟩ :: rest)) = .next (t.setTodo rest) ∧
      (∀ k, t.regs.h.word k = romIV k) ∧ (∀ k, t.regs.v.word k = 0) ∧ (∀ j (h : j < 64), t.regs.w[j] = 0) ∧
      t.regs.phase = .idle ∧ t.regs.t = 0 ∧ t.regs.dv = false ∧ t.regs.err = false ∧ t.regs.ready = true ∧
      t.regs.digest = 0x6a09e667bb67ae853c6ef372a54ff53a510e527f9b05688c1f83d9ab5be0cd19 ∧ HostKept s t ∧
      exec .reset t = .next t

/-! ## The functions -/

/-- FUNC rows read and write no state of the core: where an operation that has no encoding goes on, only the result
latch may differ, and it goes on from every other state too and delivers the same value there (40, common part; the
latch is the model's, log 3). -/
def Obligations.FunctionRowsTouchNoRegister : Prop :=
  ∀ i s t, i.format = .func → exec i s = .next t →
    t.regs = s.regs ∧ t.todo = s.todo ∧ t.framer = s.framer ∧ t.sampled = s.sampled ∧ t.result ≠ .none ∧
    ∀ s', exec i s' = .next (s'.setResult t.result)

/-- ADD32: the sum modulo 2^32, associative and commutative (40 R100). -/
def Obligations.AdditionIsModulo : Prop :=
  (∀ s x y, ∃ r : Word, exec (.add32 x y) s = .next (s.setResult (.word r)) ∧
    r.toNat = (x.toNat + y.toNat) % 2 ^ 32) ∧
  (∀ x y z, add32 (add32 x y) z = add32 x (add32 y z)) ∧ (∀ x y, add32 x y = add32 y x)

/-- XOR, AND, NOT: bit by bit over exactly 32 bits (40 R101). -/
def Obligations.BitwiseOperationsActPerBit : Prop :=
  ∀ (s : State) (x y : Word), ∃ a b c : Word,
    exec (.xor x y) s = .next (s.setResult (.word a)) ∧ exec (.and x y) s = .next (s.setResult (.word b)) ∧
    exec (.not x) s = .next (s.setResult (.word c)) ∧ c.toNat = 2 ^ 32 - 1 - x.toNat ∧ c = xor32 0xffffffff x ∧
    ∀ i, i < 32 → a.getLsbD i = (x.getLsbD i != y.getLsbD i) ∧ b.getLsbD i = (x.getLsbD i && y.getLsbD i) ∧
      c.getLsbD i = !x.getLsbD i

/-- ROTR by 1 to 31: bit `i` of the result is bit `(i + n) mod 32` of the operand; equivalently the two shifted
parts (40 R102). Every amount completes (other amounts are log 12). -/
def Obligations.RotateMovesBitsRound : Prop :=
  ∀ (s : State) (x : Word) (n : Nat), ∃ r : Word, exec (.rotr x n) s = .next (s.setResult (.word r)) ∧
    (1 ≤ n → n ≤ 31 →
      (∀ i, i < 32 → r.getLsbD i = x.getLsbD ((i + n) % 32)) ∧
      r = (x >>> n) ^^^ BitVec.ofNat 32 (x.toNat * 2 ^ (32 - n)))

/-- SHR: `floor(x / 2^n)`, zeros from the top (40 R103). Every amount completes (other amounts are log 12). -/
def Obligations.ShiftIsLogical : Prop :=
  ∀ (s : State) (x : Word) (n : Nat), ∃ r : Word, exec (.shr x n) s = .next (s.setResult (.word r)) ∧
    (1 ≤ n → n ≤ 31 →
      r.toNat = x.toNat / 2 ^ n ∧
      ∀ i, i < 32 → r.getLsbD i = (if i + n ≤ 31 then x.getLsbD (i + n) else false))

/-- The four sigma functions, bit by bit (40 R104 to R107). -/
def Obligations.SigmaFunctionsPerBit : Prop :=
  ∀ (s : State) (x : Word), ∃ a b c d : Word,
    exec (.lsigma0 x) s = .next (s.setResult (.word a)) ∧ exec (.lsigma1 x) s = .next (s.setResult (.word b)) ∧
    exec (.usigma0 x) s = .next (s.setResult (.word c)) ∧ exec (.usigma1 x) s = .next (s.setResult (.word d)) ∧
    ∀ i, i < 32 →
      a.getLsbD i = (x.getLsbD ((i + 7) % 32) ^^ x.getLsbD ((i + 18) % 32) ^^ x.getLsbD (i + 3)) ∧
      b.getLsbD i = (x.getLsbD ((i + 17) % 32) ^^ x.getLsbD ((i + 19) % 32) ^^ x.getLsbD (i + 10)) ∧
      c.getLsbD i = (x.getLsbD ((i + 2) % 32) ^^ x.getLsbD ((i + 13) % 32) ^^ x.getLsbD ((i + 22) % 32)) ∧
      d.getLsbD i = (x.getLsbD ((i + 6) % 32) ^^ x.getLsbD ((i + 11) % 32) ^^ x.getLsbD ((i + 25) % 32))

/-- CH chooses, MAJ takes the vote: the truth tables, bit by bit (40 R108, R109, R110). -/
def Obligations.ChoiceAndMajorityPerBit : Prop :=
  ∀ (s : State) (x y z : Word), ∃ c m : Word,
    exec (.ch x y z) s = .next (s.setResult (.word c)) ∧ exec (.maj x y z) s = .next (s.setResult (.word m)) ∧
    c = z ^^^ (x &&& (y ^^^ z)) ∧ m = (x &&& y) ||| (x &&& z) ||| (y &&& z) ∧
    ∀ i, i < 32 → c.getLsbD i = (if x.getLsbD i then y.getLsbD i else z.getLsbD i) ∧
      m.getLsbD i = decide (2 ≤ (x.getLsbD i).toNat + (y.getLsbD i).toNat + (z.getLsbD i).toNat)

/-- SCHED: sixteen words of the block in order, then the recurrence over earlier words (42 R141, R142). -/
def Obligations.ScheduleFollowsRecurrence : Prop :=
  ∀ (s : State) (blk : Block), ∃ w : Schedule, exec (.sched blk) s = .next (s.setResult (.schedule w)) ∧
    (∀ j (h : j < 16), w[j] = blk.extractLsb' (480 - 32 * j) 32) ∧
    (∀ t (h : t < 64), 16 ≤ t →
      w[t] = lowerSigma1 w[t - 2] + w[t - 7] + lowerSigma0 w[t - 15] + w[t - 16])

/-- T1 and T2: the sums modulo 2^32, whatever the order of addition (43 R151, R152). -/
def Obligations.RoundTermsAreSums : Prop :=
  (∀ (s : State) (e f g h k w : Word), ∃ r : Word, exec (.t1 e f g h k w) s = .next (s.setResult (.word r)) ∧
    r.toNat = ((upperSigma1 e).toNat + (choice e f g).toNat + h.toNat + k.toNat + w.toNat) % 2 ^ 32) ∧
  (∀ (s : State) (a b c : Word), ∃ r : Word, exec (.t2 a b c) s = .next (s.setResult (.word r)) ∧
    r.toNat = ((upperSigma0 a).toNat + (majority a b c).toNat) % 2 ^ 32)

/-- ROUNDFN: the eight simultaneous assignments (43 R154). -/
def Obligations.RoundFunctionShiftsVariables : Prop :=
  ∀ (s : State) (v : WorkVars) (k w : Word), ∃ r : WorkVars,
    exec (.roundfn v k w) s = .next (s.setResult (.vars r)) ∧
    r.h = v.g ∧ r.g = v.f ∧ r.f = v.e ∧ r.e = v.d + t1 v.e v.f v.g v.h k w ∧ r.d = v.c ∧ r.c = v.b ∧ r.b = v.a ∧
    r.a = t1 v.e v.f v.g v.h k w + t2 v.a v.b v.c

/-- COMPRESS: 64 rounds over the schedule from the hash state's words, then the word-wise sum (43 R159). -/
def Obligations.CompressIteratesRounds : Prop :=
  ∀ (s : State) (h : HashState) (blk : Block), ∃ (r : HashState) (v : Nat → WorkVars),
    exec (.compress h blk) s = .next (s.setResult (.hash r)) ∧ (∀ k, (v 0).word k = h.word k) ∧
    (∀ t (ht : t < 64), v (t + 1) = roundFn (v t) (kRows[t]'(kRows_length ▸ ht)) (sched blk)[t]) ∧
    (∀ k, r.word k = h.word k + (v 64).word k)

/-- HASHBLOCKS: the left fold of `compress`, for every list of blocks; a list in two parts is folded part by part
(44 R179). -/
def Obligations.HashBlocksFoldsCompress : Prop :=
  (∀ s h bs, exec (.hashblocks h bs) s = .next (s.setResult (.hash (hashBlocks h bs)))) ∧
  (∀ h, hashBlocks h [] = h) ∧
  (∀ h b bs, hashBlocks h (b :: bs) = hashBlocks (compress h b) bs) ∧
  (∀ h bs cs, hashBlocks h (bs ++ cs) = hashBlocks (hashBlocks h bs) cs)

/-- PAD: the byte layout of the padded message, cut into 64-byte blocks: message, sentinel, zero fill, bit length
big-endian (41 R121, R122, R125, R126). -/
def Obligations.PadLaysOutMessage : Prop :=
  ∀ (s : State) (m : List Byte), m.length < 2 ^ 61 →
    ∃ bs : List Block, exec (.pad m) s = .next (s.setResult (.blocks bs)) ∧ bs.length = (m.length + 72) / 64 ∧
      (m.length % 64 ≤ 55 → bs.length = m.length / 64 + 1) ∧ (56 ≤ m.length % 64 → bs.length = m.length / 64 + 2) ∧
      ∀ i j (hi : i < bs.length), j < 64 →
        (∀ hm : 64 * i + j < m.length, blockByte bs[i] j = m[64 * i + j]) ∧
        (64 * i + j = m.length → blockByte bs[i] j = 0x80) ∧
        (m.length < 64 * i + j → 64 * i + j + 8 < 64 * bs.length → blockByte bs[i] j = 0) ∧
        (64 * bs.length ≤ 64 * i + j + 8 →
          (blockByte bs[i] j).toNat = 8 * m.length / 2 ^ (8 * (63 - j)) % 256)

/-- `pad`, HASH and `compute_digest` refuse a message of 2^61 bytes or more, and every shorter one completes
(41 R128). -/
def Obligations.OnlyTooLongMessagesAreRefused : Prop :=
  ∀ (s : State) (m : List Byte) (rest : List Drive),
    (2 ^ 61 ≤ m.length → exec (.pad m) s = .refused .messageTooLong ∧
      exec (.computeDigest m) s = .refused .messageTooLong ∧
      step (s.setTodo (.hash m :: rest)) = .refused .messageTooLong) ∧
    (m.length < 2 ^ 61 → (∃ t, exec (.pad m) s = .next t) ∧ (∃ t, exec (.computeDigest m) s = .next t) ∧
      ∃ t, step (s.setTodo (.hash m :: rest)) = .next t)

/-- COMPUTE_DIGEST is `hash_blocks(IV, pad(M))`, and has no side effect (44 R181). -/
def Obligations.ComputeDigestHashesPaddedMessage : Prop :=
  ∀ (s : State) (m : List Byte), m.length < 2 ^ 61 →
    ∃ (bs : List Block) (r : HashState), exec (.pad m) s = .next (s.setResult (.blocks bs)) ∧
      exec (.hashblocks iv bs) s = .next (s.setResult (.hash r)) ∧
      exec (.computeDigest m) s = .next (s.setResult (.hash r))

/-! ## The ports -/

/-- The block port: byte `j` on bits `[511 - 8j : 504 - 8j]`, word `j` on bits `[511 - 32j : 480 - 32j]` and
big-endian from bytes `4j .. 4j + 3`, and a block is its 64 bytes (20 R55, R56, R58; 30 R84). -/
def Obligations.BlockPortIsBigEndian : Prop :=
  (∀ (b : Block) (j k : Nat), j < 64 → k < 8 → (blockByte b j).getLsbD k = b.getLsbD (504 - 8 * j + k)) ∧
  (∀ (b : Block) (j k : Nat), j < 16 → k < 32 → (blockWord b j).getLsbD k = b.getLsbD (480 - 32 * j + k)) ∧
  (∀ (b : Block) (j : Nat), j < 16 →
    blockWord b j = be32 (blockByte b (4 * j)) (blockByte b (4 * j + 1)) (blockByte b (4 * j + 2))
      (blockByte b (4 * j + 3))) ∧
  (∀ (bs : List Byte) (j : Nat) (h : bs.length = 64) (hj : j < 64), blockByte (blockOfBytes bs) j = bs[j]) ∧
  (∀ b0 b1 b2 b3 : Byte, (be32 b0 b1 b2 b3).toNat =
    b0.toNat * 2 ^ 24 + b1.toNat * 2 ^ 16 + b2.toNat * 2 ^ 8 + b3.toNat)

/-- The digest port: `H[k]` on bits `[255 - 32k : 224 - 32k]`; byte `j` is byte `j mod 4` of `H[j div 4]`
(20 R59). -/
def Obligations.DigestPortShowsHashState : Prop :=
  ∀ r : Regs,
    (∀ k : Fin 8, r.digest.extractLsb' (224 - 32 * k.val) 32 = r.h.word k) ∧
    (∀ j (hj : j < 32), digestByte r.digest j =
      (r.h.word ⟨j / 4, by omega⟩).extractLsb' (24 - 8 * (j % 4)) 8)

/-- The canonical rendering has 64 lowercase hexadecimal digits, and they spell the port's value, so no digit of a
word is dropped (44 R182). -/
def Obligations.RenderingIsFixedWidthHex : Prop :=
  ∀ d : Digest, (renderDigest d).length = 64 ∧ (∀ c ∈ renderDigest d, c ∈ hexDigits) ∧
    (renderDigest d).foldl (fun n c => 16 * n + hexDigits.idxOf c) 0 = d.toNat

/-! ## The FRAMER -/

/-- The procedural form of padding, whole message in one update and then finalize, gives the blocks of `pad`
(41 R123). -/
def Obligations.FramerProcedureEqualsPad : Prop :=
  ∀ m : List Byte, m.length < 2 ^ 61 →
    updateBlocks framerStart m ++ finalBlocks (framerUpdate framerStart m) = pad m

/-- Chunked input: the block sequence depends only on the concatenation of the chunks, and the counter ends at the
bit length of the whole message (41 R132, R127). -/
def Obligations.ChunkedFramingEqualsWhole : Prop :=
  ∀ chunks : List (List Byte), chunks.flatten.length < 2 ^ 61 →
    let run := chunks.foldl (fun (st : Framer × List Block) c => (framerUpdate st.1 c, st.2 ++ updateBlocks st.1 c))
      (framerStart, [])
    run.2 ++ finalBlocks run.1 = pad chunks.flatten ∧
    (finalCounter run.1).toNat = 8 * chunks.flatten.length ∧ run.1.residual.length < 64

/-- The FRAMER's operations on the host's side: init, update, finalize write its state and deliver the blocks they
emit to the core as BLOCK commands, in order, before whatever the host does next, and touch no register of the core
(41 R130, R132). What the FRAMER holds after finalize, the counter that was written and no residual, is the model's
choice (log 7). -/
def Obligations.FramerItemsDeliverBlocks : Prop :=
  ∀ (s : State) (rest : List Drive) (chunk : List Byte),
    (∃ t, step (s.setTodo (.framerInit :: rest)) = .next t ∧ t.framer = ⟨0, []⟩ ∧ t.todo = rest ∧
      t.regs = s.regs ∧ t.sampled = s.sampled ∧ t.result = s.result) ∧
    (s.framer.counter.toNat + 8 * (s.framer.residual ++ chunk).length < 2 ^ 64 →
      ∃ t, step (s.setTodo (.framerUpdate chunk :: rest)) = .next t ∧ t.regs = s.regs ∧
        t.sampled = s.sampled ∧ t.result = s.result ∧
        t.todo = (updateBlocks s.framer chunk).map (fun b => .offer 0b10 b) ++ rest ∧
        t.framer = framerUpdate s.framer chunk ∧
        (updateBlocks s.framer chunk).flatMap blockBytes ++ t.framer.residual = s.framer.residual ++ chunk ∧
        t.framer.residual.length = (s.framer.residual ++ chunk).length % 64 ∧
        t.framer.counter.toNat + 8 * t.framer.residual.length =
          s.framer.counter.toNat + 8 * (s.framer.residual ++ chunk).length) ∧
    (s.framer.counter.toNat + 8 * s.framer.residual.length < 2 ^ 64 →
      ∃ t, step (s.setTodo (.framerFinalize :: rest)) = .next t ∧ t.regs = s.regs ∧
        t.sampled = s.sampled ∧ t.result = s.result ∧
        t.todo = (finalBlocks s.framer).map (fun b => .offer 0b10 b) ++ rest ∧
        t.framer.residual = [] ∧
        t.framer.counter.toNat = s.framer.counter.toNat + 8 * s.framer.residual.length)

/-- `pad` is injective (41 R129 (d)). -/
def Obligations.PadIsInjective : Prop :=
  ∀ m n : List Byte, m.length < 2 ^ 61 → n.length < 2 ^ 61 → pad m = pad n → m = n

/-! ## Rules of the whole machine -/

/-- Exactly reset, INIT and UPDATE (and BLOCK, whose last edge is UPDATE) write `H`, all eight words at one step: to
`IV`, to `IV`, and to the word-wise sum with `V`; while a block is in progress no edge but UPDATE and reset changes
`H`, nor the digest port (10 R22). -/
def Obligations.OnlyThreeEventsWriteHashState : Prop :=
  (∀ i s t, exec i s = .next t → t.regs.h ≠ s.regs.h →
    ((i = .reset ∨ i = .init) ∧ ∀ k, t.regs.h.word k = romIV k) ∨
    (i = .update ∧ ∀ k, t.regs.h.word k = s.regs.h.word k + s.regs.v.word k) ∨
    ∃ blk, i = .block blk ∧ t.regs.h = compress s.regs.h blk) ∧
  (∀ (s t : State) (p : Pins) (rest : List Drive), s.todo = .edge p :: rest → p.rst = false →
    s.regs.phase = .round → step s = .next t → t.regs.h = s.regs.h ∧ t.regs.digest = s.regs.digest)

/-- `err` is sticky: only RESET clears it, and only an accepted reserved command sets it (60 R191, R198). -/
def Obligations.ErrIsStickyUntilReset : Prop :=
  ∀ i s t, exec i s = .next t →
    (s.regs.err = true → t.regs.err = false → i = .reset) ∧
    (s.regs.err = false → t.regs.err = true → i = .rsvd ∧ s.regs.phase = .idle)

/-- How `phase` and `t` advance at an edge, the complete list; and `t` is 0 in IDLE and UPDATE in every state that is
reachable from reset (10 R27). -/
def Obligations.SequencerAdvancesAsListed : Prop :=
  (∀ s, Reachable s → s.regs.phase ≠ .round → s.regs.t = 0) ∧
  ∀ (s : State) (p : Pins) (rest : List Drive), s.todo = .edge p :: rest →
    ∃ t, step s = .next t ∧
      (p.rst = true → t.regs.phase = .idle ∧ t.regs.t = 0) ∧
      (p.rst = false → s.regs.phase = .idle → p.cmdValid = true → p.cmdOp = 0b10 →
        t.regs.phase = .round ∧ t.regs.t = 0) ∧
      (p.rst = false → s.regs.phase = .idle → ¬ (p.cmdValid = true ∧ p.cmdOp = 0b10) →
        t.regs.phase = .idle ∧ t.regs.t = s.regs.t) ∧
      (p.rst = false → s.regs.phase = .round → s.regs.t.toNat < 63 →
        t.regs.phase = .round ∧ t.regs.t.toNat = s.regs.t.toNat + 1) ∧
      (p.rst = false → s.regs.phase = .round → s.regs.t.toNat = 63 → t.regs.phase = .update ∧ t.regs.t = 0) ∧
      (p.rst = false → s.regs.phase = .update → t.regs.phase = .idle ∧ t.regs.t = s.regs.t)

/-- Every step keeps: `t` is 0 outside ROUND, and `dv` says that no block is in progress (10 R27, R28). -/
def Obligations.SequencerInvariantKept : Prop :=
  ∀ s t : State, SequencerInv s.regs → step s = .next t → SequencerInv t.regs

/-- Every step keeps: while a block is in progress, `W` holds some block's schedule as far as it is derived and `V`
the variables after the rounds done (42 R143, 43 R160). -/
def Obligations.BlockInProgressKept : Prop :=
  ∀ s t : State, BlockInProgress s.regs → step s = .next t → BlockInProgress t.regs

/-- Every step keeps: `H` is the fold of blocks from `IV`, at least one of them where `dv = 1` (44 R180, 10 R28);
the premise about the block in progress is an invariant of its own. -/
def Obligations.HashStateStaysChained : Prop :=
  ∀ s t : State, BlockInProgress s.regs → Chained s.regs → step s = .next t → Chained t.regs

/-- Every step keeps the FRAMER's residual shorter than a block (41 R132). -/
def Obligations.FramerResidualStaysPartial : Prop :=
  ∀ s t : State, FramerInv s.framer → step s = .next t → FramerInv t.framer

/-- The reset state meets the four invariants, is reachable, and RESET leads every state's registers to it (10 R20,
70 R210). That the FRAMER is empty and the host has nothing to do at State.reset is the model's choice, and the clauses
on `FramerInv` and `Reachable` rest on it (log 13). -/
def Obligations.ResetMeetsTheInvariants : Prop :=
  SequencerInv State.reset.regs ∧ BlockInProgress State.reset.regs ∧ Chained State.reset.regs ∧
  FramerInv State.reset.framer ∧ Reachable State.reset ∧
  ∀ s, exec .reset s = .next (s.setRegs State.reset.regs)

/-- No transition depends on a data value: two states in the same phase and round, at edges with the same `rst`,
`cmd_valid` and `cmd_op`, go to the same phase and round, whatever `H`, `V`, `W` and `block_in` are (40 R112,
10 R35). -/
def Obligations.SequencingIsDataIndependent : Prop :=
  ∀ (s s' : State) (p p' : Pins) (rest rest' : List Drive),
    s.regs.phase = s'.regs.phase → s.regs.t = s'.regs.t → p.rst = p'.rst → p.cmdValid = p'.cmdValid →
    p.cmdOp = p'.cmdOp → s.todo = .edge p :: rest → s'.todo = .edge p' :: rest' →
    ∃ t t', step s = .next t ∧ step s' = .next t' ∧ t.regs.phase = t'.regs.phase ∧ t.regs.t = t'.regs.t ∧
      t.regs.ready = t'.regs.ready

/-- The 16-word circular window computes the same schedule words as the 64-word array (10 R32). -/
def Obligations.CircularWindowHoldsSameWords : Prop :=
  ∀ (blk : Block) (n t : Nat) (ht : t < 64), n ≤ 48 → n ≤ t → t < n + 16 →
    (windowAfter blk n)[t % 16]'(by omega) = (sched blk)[t]

/-! ## The clocked core computes `compress`; a script computes `compute_digest` -/

/-- The clocked core computes `compress`: from an accept of BLOCK, with `rst = 0` at the 65 edges that follow and
anything on the other inputs there, the registers at every edge in between are the schedule and the variables of
43 R159, `H` is unchanged until the last, and after the last the state is that of the whole command (43 R160); that the whole command, executed by itself, leaves in
`V`, `W` and `t` what its edges leave is the model's inference (log 1). -/
def Obligations.ClockedCoreComputesCompress : Prop :=
  ∀ (s : State) (blk : Block) (ps : List Pins) (rest : List Drive),
    s.regs.phase = .idle → ps.length = 65 → (∀ p ∈ ps, p.rst = false) →
    s.todo = .edge ⟨false, true, 0b10, blk⟩ :: (ps.map .edge ++ rest) →
    (∀ n, n ≤ 64 → ∃ t, run (n + 1) s = .next t ∧ t.regs.h = s.regs.h ∧
      t.regs.ready = false ∧ t.regs.dv = false ∧ t.regs.err = s.regs.err ∧
      t.regs.v = varsAfter s.regs.h (sched blk) n ∧
      (∀ j (hj : j < 64), j < max 16 n → t.regs.w[j] = (sched blk)[j]) ∧
      (n < 64 → t.regs.phase = .round ∧ t.regs.t.toNat = n) ∧ (n = 64 → t.regs.phase = .update)) ∧
    run Config.blockEdges s = exec (.block blk) (s.setTodo rest) ∧
    ∃ t, run Config.blockEdges s = .next t ∧ t.regs.h = compress s.regs.h blk ∧
      t.regs.dv = true ∧ t.regs.phase = .idle

/-- The script `HASH M`, from any idle state without a recorded fault, ends with `H = compute_digest(M)`,
`digest_valid = 1`, `ready = 1` and no fault: one step to expand it, `1 + 66 N` edges, and one step to see `ready`; and
DIGEST, if it follows, samples that value and the computation of `M` is over (44 R180, R181, R184; 30 R90; 70 R222; the
premise `err = 0` is 60 R193's; the steps that are no edges are the model's, log 2). -/
def Obligations.HashScriptComputesDigest : Prop :=
  ∀ (s : State) (m : List Byte) (rest : List Drive),
    Faultless s → s.regs.phase = .idle → m.length < 2 ^ 61 → s.todo = .hash m :: rest →
    ∃ t, run (1 + (1 + 66 * ((m.length + 72) / 64)) + 1) s = .next t ∧
      t.regs.h = computeDigest m ∧ DigestReady t ∧ Faultless t ∧ t.todo = rest ∧
      t.framer = s.framer ∧ t.sampled = s.sampled ∧ t.result = s.result ∧
      ∀ rest', rest = .digest :: rest' →
        ∃ u, step t = .next u ∧ u.sampled = some (digestOf (computeDigest m)) ∧ u.regs = t.regs ∧ u.todo = rest' ∧
          RunOver m (1 + (1 + 66 * ((m.length + 72) / 64)) + 1 + 1) s u

/-- What a command sequence computes: after INIT in a state without a recorded fault (60 R193's premise), or after
RESET, BLOCKs in any number with NOPs, idle edges and waits anywhere between them, and a last wait, `H` is the fold of
exactly those blocks from `IV`, `dv` says whether there was one, no fault is recorded, and the host has had exactly
those blocks accepted (44 R180; the items are the model's list, log 2). What the commands do in a faulted state is
stated command by command. -/
def Obligations.CommandSequenceFoldsItsBlocks : Prop :=
  ∀ (s : State) (start : Drive) (items rest : List Drive) (blk : Block),
    s.regs.phase = .idle → (start = .offer 0b01 blk ∧ Faultless s ∨ start = .reset) →
    (∀ d ∈ items, d = .wait ∨ (∃ n, d = .idle n) ∨ (∃ b, d = .offer 0b00 b) ∨ ∃ b, d = .offer 0b10 b) →
    s.todo = start :: (items ++ .wait :: rest) →
    let blocks := items.filterMap fun | .offer op b => if op = 0b10 then some b else none | _ => none
    ∃ n t, run n s = .next t ∧ t.todo = rest ∧ t.regs.ready = true ∧ t.regs.h = hashBlocks iv blocks ∧
      t.regs.dv = !blocks.isEmpty ∧ Faultless t ∧ trackRun n s none = some ⟨blocks, none⟩

/-- A BLOCK held for 132 edges is accepted twice: the block is compressed a second time into the running state
(70 R221; the premise that no fault is recorded is 60 R193's). -/
def Obligations.HeldBlockIsAcceptedAgain : Prop :=
  ∀ (s : State) (blk : Block) (rest : List Drive), Faultless s → s.regs.phase = .idle →
    s.todo = List.replicate 132 (.edge ⟨false, true, 0b10, blk⟩) ++ rest →
    ∃ t, run 132 s = .next t ∧
      t.regs.h = compress (compress s.regs.h blk) blk ∧ t.regs.dv = true ∧ Faultless t ∧ t.todo = rest

/-- A computation that is over has its digest: whatever the host and the core did in the run, and from whatever state
it began, where it ends with the computation of `m` over, `H` is `compute_digest(m)` and what the host has sampled is
that digest (44 R180, R181, R184; the run's history is tracked beside the machine, log 18). -/
def Obligations.RunOverHoldsTheDigest : Prop :=
  ∀ (m : List Byte) (n : Nat) (s t : State), RunOver m n s t →
    t.regs.h = computeDigest m ∧ t.sampled = some (digestOf (computeDigest m)) ∧
    t.regs.digest = digestOf (computeDigest m)
end

