-- ==== Sys2Proof/Laws/Schedule.lean ====
section
/-! SUPPORT. Reading and writing the schedule registers, loading them, and the words of `sched`
(spec/42_msg_schedule_expansion.md R141 to R144). -/

namespace Sys2Proof.Machine

theorem readW_eq (w : Schedule) (t : BitVec 6) : readW w t = w[t.toNat]'t.isLt := rfl

@[simp] theorem readW_writeW_same (w : Schedule) (t : BitVec 6) (x : Word) : readW (writeW w t x) t = x := by
  simp [readW, writeW]

theorem readW_writeW_ne (w : Schedule) {t u : BitVec 6} (x : Word) (h : u ≠ t) :
    readW (writeW w t x) u = readW w u := by
  have hne : t.toNat ≠ u.toNat := fun e => h (BitVec.eq_of_toNat_eq e.symm)
  simp [readW, writeW, hne]

theorem writeW_getElem (w : Schedule) (t : BitVec 6) (x : Word) (j : Nat) (hj : j < 64) :
    (writeW w t x)[j] = if t.toNat = j then x else w[j] := by
  simp [writeW, Vector.getElem_set]

/-- What LOAD leaves in each schedule register (43 R153). -/
theorem loadW_getElem (blk : Block) (w : Schedule) (n j : Nat) (hj : j < 64) :
    (loadW blk w n)[j] = if j < n then blockWord blk j else w[j] := by
  induction n with
  | zero => simp [loadW]
  | succ n ih =>
    simp only [loadW, Vector.getElem_setIfInBounds, ih]
    by_cases h : n = j
    · subst h; simp
    · have : (j < n + 1) ↔ (j < n) := by omega
      simp [h, this]

theorem roundWord_low {t : BitVec 6} (h : t.toNat ≤ 15) (w : Schedule) : roundWord w t = readW w t := by
  simp [roundWord, h]

theorem roundWord_high {t : BitVec 6} (h : 16 ≤ t.toNat) (w : Schedule) : roundWord w t = nextW w t := by
  simp [roundWord, show ¬ t.toNat ≤ 15 by omega]

theorem roundW_low {t : BitVec 6} (h : t.toNat ≤ 15) (w : Schedule) : roundW w t = w := by simp [roundW, h]

theorem roundW_high {t : BitVec 6} (h : 16 ≤ t.toNat) (w : Schedule) : roundW w t = writeW w t (nextW w t) := by
  simp [roundW, show ¬ t.toNat ≤ 15 by omega]

/-- The recurrence with the registers named by number (42 R142). -/
theorem nextW_eq (w : Schedule) (t : BitVec 6) (h : 16 ≤ t.toNat) :
    nextW w t =
      add32 (add32 (add32 (lowerSigma1 (w[t.toNat - 2]'(by have := t.isLt; omega)))
        (w[t.toNat - 7]'(by have := t.isLt; omega))) (lowerSigma0 (w[t.toNat - 15]'(by have := t.isLt; omega))))
        (w[t.toNat - 16]'(by have := t.isLt; omega)) := by
  have key : ∀ k : BitVec 6, k.toNat ≤ 16 → (t - k).toNat = t.toNat - k.toNat := by
    intro k hk
    rw [BitVec.toNat_sub]
    have := t.isLt
    omega
  have h2 := key 2 (by decide)
  have h7 := key 7 (by decide)
  have h15 := key 15 (by decide)
  have h16 := key 16 (by decide)
  simp only [nextW, readW, h2, h7, h15, h16]
  rfl

/-- The recurrence reads only earlier words, at most 16 back (42 R142). -/
theorem nextW_congr {w w' : Schedule} {t : BitVec 6} (h : 16 ≤ t.toNat)
    (hw : ∀ j (hj : j < 64), j < t.toNat → w[j] = w'[j]) : nextW w t = nextW w' t := by
  have ht := t.isLt
  rw [nextW_eq w t h, nextW_eq w' t h, hw _ _ (by omega), hw _ _ (by omega), hw _ _ (by omega), hw _ _ (by omega)]

/-- A word once derived is not written again. -/
theorem schedAfter_stable (blk : Block) (n j : Nat) (hn : n < 48) (hj : j < 64) (h : j < 16 + n) :
    (schedAfter blk (n + 1))[j] = (schedAfter blk n)[j] := by
  have : (BitVec.ofNat 6 (16 + n)).toNat = 16 + n := by simp; omega
  rw [schedAfter, writeW_getElem, this, if_neg (by omega)]

/-- Word `j` of the schedule stands in it as soon as it is derived. -/
theorem sched_getElem_of_after (blk : Block) (n j : Nat) (hn : n ≤ 48) (hj : j < 64) (h : j < 16 + n) :
    (sched blk)[j] = (schedAfter blk n)[j] := by
  have key : ∀ k, n + k ≤ 48 → (schedAfter blk (n + k))[j] = (schedAfter blk n)[j] := by
    intro k
    induction k with
    | zero => intro _; rfl
    | succ k ih =>
      intro hk
      rw [show n + (k + 1) = (n + k) + 1 from rfl, schedAfter_stable blk (n + k) j (by omega) hj (by omega)]
      exact ih (by omega)
  have := key (48 - n) (by omega)
  rw [show n + (48 - n) = 48 by omega] at this
  exact this

/-- The word derived in the `n`-th derivation is the recurrence over the words before it. -/
theorem schedAfter_new (blk : Block) (n : Nat) (hn : n < 48) :
    (schedAfter blk (n + 1))[16 + n]'(by omega) = nextW (schedAfter blk n) (BitVec.ofNat 6 (16 + n)) := by
  have : (BitVec.ofNat 6 (16 + n)).toNat = 16 + n := by simp; omega
  rw [schedAfter, writeW_getElem, if_pos this]

end Sys2Proof.Machine
end

