-- ==== Sys2Proof/Laws/Compression.lean ====
section
/-! SUPPORT. The rounds over the schedule registers: while a block is in progress the registers agree with its
schedule, and each round consumes the schedule's own word (spec/42_msg_schedule_expansion.md R143). -/

namespace Sys2Proof.Machine

/-- The registers `W` hold the block's schedule up to word `n` (not included). -/
def AgreeUpTo (w : Schedule) (blk : Block) (n : Nat) : Prop :=
  ∀ j (hj : j < 64), j < n → w[j] = (sched blk)[j]

/-- Words 16 to 63 of a schedule follow the recurrence over the schedule itself (42 R142). -/
theorem sched_getElem_high (blk : Block) (t : BitVec 6) (h : 16 ≤ t.toNat) :
    (sched blk)[t.toNat]'t.isLt = nextW (sched blk) t := by
  have ht : t.toNat < 64 := t.isLt
  have e : BitVec.ofNat 6 (16 + (t.toNat - 16)) = t := by
    rw [show 16 + (t.toNat - 16) = t.toNat by omega, BitVec.ofNat_toNat, BitVec.setWidth_eq]
  have hnew := schedAfter_new blk (t.toNat - 16) (by omega)
  rw [e] at hnew
  have hs : (sched blk)[t.toNat]'ht = (schedAfter blk (t.toNat - 16 + 1))[t.toNat]'ht :=
    sched_getElem_of_after blk (t.toNat - 16 + 1) t.toNat (by omega) ht (by omega)
  have hidx : (schedAfter blk (t.toNat - 16 + 1))[16 + (t.toNat - 16)]'(by omega) =
      (schedAfter blk (t.toNat - 16 + 1))[t.toNat]'ht := by
    exact getElem_congr_idx (by omega)
  rw [hs, ← hidx, hnew]
  exact nextW_congr h fun j hj hlt => (sched_getElem_of_after blk (t.toNat - 16) j (by omega) hj (by omega)).symm

/-- Words 0 to 15 of a schedule are the block's words (42 R141). -/
theorem sched_getElem_low (blk : Block) (j : Nat) (h : j < 16) : (sched blk)[j]'(by omega) = blockWord blk j := by
  rw [sched_getElem_of_after blk 0 j (by omega) (by omega) (by omega), schedAfter, loadW_getElem, if_pos h]

/-- After LOAD the registers agree with the block's schedule up to word 16 (42 R143). -/
theorem agreeUpTo_load (blk : Block) (w : Schedule) : AgreeUpTo (loadW blk w 16) blk 16 := by
  intro j hj hlt
  rw [loadW_getElem, if_pos hlt, sched_getElem_low blk j hlt]

/-- Round `t` consumes word `t` of the schedule (42 R143). -/
theorem roundWord_of_agree {w : Schedule} {blk : Block} {t : BitVec 6} (h : AgreeUpTo w blk (max 16 t.toNat)) :
    roundWord w t = readW (sched blk) t := by
  have ht : t.toNat < 64 := t.isLt
  by_cases hl : t.toNat ≤ 15
  · rw [roundWord_low hl]; exact h t.toNat ht (by omega)
  · rw [roundWord_high (by omega)]
    exact (nextW_congr (by omega) fun j hj hlt => h j hj (by omega)).trans
      (sched_getElem_high blk t (by omega)).symm

/-- Round `t` extends the agreement by word `t` (42 R143). -/
theorem roundW_agree {w : Schedule} {blk : Block} {t : BitVec 6} (h : AgreeUpTo w blk (max 16 t.toNat)) :
    AgreeUpTo (roundW w t) blk (max 16 (t.toNat + 1)) := by
  have ht : t.toNat < 64 := t.isLt
  by_cases hl : t.toNat ≤ 15
  · rw [roundW_low hl]; exact fun j hj hlt => h j hj (by omega)
  · intro j hj hlt
    rw [roundW_high (by omega), writeW_getElem]
    split
    · next e =>
      subst e
      have hw := roundWord_of_agree h
      rw [roundWord_high (by omega)] at hw
      exact hw
    · exact h j hj (by omega)

/-- Agreement over all 64 words is equality. -/
theorem eq_of_agree {w : Schedule} {blk : Block} (h : AgreeUpTo w blk 64) : w = sched blk :=
  Vector.ext fun j hj => h j hj hj

@[simp] theorem varsOf_word (h : HashState) (k : Fin 8) : (varsOf h).word k = h.word k := by
  fin_cases k <;> rfl

/-- Each word of the fold-back (43 R158). -/
@[simp] theorem foldBack_word (h : HashState) (v : WorkVars) (k : Fin 8) :
    (foldBack h v).word k = add32 (h.word k) (v.word k) := by
  fin_cases k <;> rfl

theorem varsAfter_zero (h : HashState) (w : Schedule) : varsAfter h w 0 = varsOf h := by rw [varsAfter]

/-- One more round (43 R159). -/
theorem varsAfter_succ (h : HashState) (w : Schedule) (n : Nat) :
    varsAfter h w (n + 1) =
      roundFn (varsAfter h w n) (romK (BitVec.ofNat 6 n)) (readW w (BitVec.ofNat 6 n)) := by
  rw [varsAfter]

/-- `compress` is the fold-back after 64 rounds (43 R159). -/
theorem compress_eq (s : HashState) (blk : Block) : compress s blk = foldBack s (varsAfter s (sched blk) 64) := rfl

/-- Each word of `compress` (43 R159). -/
theorem compress_word (h : HashState) (blk : Block) (k : Fin 8) :
    (compress h blk).word k = add32 (h.word k) ((varsAfter h (sched blk) 64).word k) := by
  rw [compress_eq, foldBack_word]

end Sys2Proof.Machine
end

