-- ==== Sys2Proof/Laws/Decode.lean ====
section
/-! SUPPORT. The fields of a selector, the decoder against the opcode table's rows, and the word an edge forms
(spec/30_encoding.md R85, R87). -/

namespace Sys2Proof

@[simp] theorem Phase.ofCode_code (p : Phase) : Phase.ofCode p.code = some p := by cases p <;> rfl

/-- The phase a code is read as has that code. -/
theorem Phase.code_of_ofCode {c : BitVec 2} {p : Phase} (h : Phase.ofCode c = some p) : p.code = c := by
  unfold Phase.ofCode at h
  split at h
  · next e => cases h; exact e.symm
  · split at h
    · next e => cases h; exact e.symm
    · split at h
      · next e => cases h; exact e.symm
      · cases h

/-- No selector value matches two rows of the table (30 R85). -/
theorem microRows_no_overlap :
    ∀ sel : BitVec 5, (microRows.filter (fun r => r.matches sel)).length ≤ 1 := by decide

/-- A selector matches no row exactly where its phase code is `0b11` (30 R85). -/
theorem microRows_total :
    ∀ sel : BitVec 5, (microRows.filter (fun r => r.matches sel)) = [] ↔ sel.extractLsb' 3 2 = 0b11#2 := by
  decide

namespace Machine

theorem selector_phase (ph : Phase) (p : Pins) : (selector ph p).extractLsb' 3 2 = ph.code := by
  obtain ⟨_, v, op, _⟩ := p
  revert v op; cases ph <;> simp only [selector] <;> decide

theorem selector_valid (ph : Phase) (p : Pins) : (selector ph p).getLsbD 2 = p.cmdValid := by
  obtain ⟨_, v, op, _⟩ := p
  revert v op; cases ph <;> simp only [selector] <;> decide

theorem selector_op (ph : Phase) (p : Pins) : (selector ph p).extractLsb' 0 2 = p.cmdOp := by
  obtain ⟨_, v, op, _⟩ := p
  revert v op; cases ph <;> simp only [selector] <;> decide

/-- The selector of the inputs a selector stands for is that selector. -/
theorem selector_pinsOf {sel : BitVec 5} {ph : Phase} (h : Phase.ofCode (sel.extractLsb' 3 2) = some ph)
    (blk : Block) : selector ph (pinsOf sel blk) = sel := by
  simp only [selector, pinsOf, Phase.code_of_ofCode h]
  clear h
  revert sel; decide

/-- An edge with `rst = 1` selects RESET (30 R85). -/
theorem decode_edgeWord_reset (ph : Phase) {p : Pins} (h : p.rst = true) :
    decode (edgeWord ph p) = .ok .reset := by simp [edgeWord, h, decode]

/-- What an edge with `rst = 0` selects (30 R87). -/
theorem decode_edgeWord (ph : Phase) {p : Pins} (h : p.rst = false) :
    decode (edgeWord ph p) =
      .ok (match ph with
        | .idle => if p.cmdValid then decodeOffer p.cmdOp p.blockIn else .hold
        | .round => .round
        | .update => .update) := by
  cases ph <;>
    simp only [edgeWord, h, decode, decodeMicro, selector_phase, selector_valid, selector_op, Phase.ofCode_code,
      Bool.false_eq_true, if_false]

/-- Every edge selects an operation (60 R196). -/
theorem decode_edgeWord_ok (ph : Phase) (p : Pins) : ∃ i, decode (edgeWord ph p) = .ok i := by
  cases h : p.rst
  · exact ⟨_, decode_edgeWord ph h⟩
  · exact ⟨_, decode_edgeWord_reset ph h⟩

end Machine

end Sys2Proof
end

