-- ==== Sys2Proof/Laws/State.lean ====
section
/-! SUPPORT. One lemma per field per update: of the state, and of the core's registers for each rule that writes
them. All are true by rfl; the ones over `setRegs` and `blockRegs` are proved without it, so that a later proof that
rewrites with them does not leave the kernel to compare a state after a whole BLOCK with the state before it. -/

namespace Sys2Proof.Machine
@[simp] theorem State.setRegs_regs (s : State) (r : Regs) : (s.setRegs r).regs = r := rfl
@[simp] theorem State.setRegs_todo (s : State) (r : Regs) : (s.setRegs r).todo = s.todo := by
  cases s; rfl
@[simp] theorem State.setRegs_framer (s : State) (r : Regs) : (s.setRegs r).framer = s.framer := by
  cases s; rfl
@[simp] theorem State.setRegs_sampled (s : State) (r : Regs) : (s.setRegs r).sampled = s.sampled := by
  cases s; rfl
@[simp] theorem State.setRegs_result (s : State) (r : Regs) : (s.setRegs r).result = s.result := by
  cases s; rfl

@[simp] theorem State.setTodo_regs (s : State) (d : List Drive) : (s.setTodo d).regs = s.regs := rfl
@[simp] theorem State.setTodo_todo (s : State) (d : List Drive) : (s.setTodo d).todo = d := rfl
@[simp] theorem State.setTodo_framer (s : State) (d : List Drive) : (s.setTodo d).framer = s.framer := rfl
@[simp] theorem State.setTodo_sampled (s : State) (d : List Drive) : (s.setTodo d).sampled = s.sampled := rfl
@[simp] theorem State.setTodo_result (s : State) (d : List Drive) : (s.setTodo d).result = s.result := rfl

@[simp] theorem State.setFramer_regs (s : State) (f : Framer) : (s.setFramer f).regs = s.regs := rfl
@[simp] theorem State.setFramer_todo (s : State) (f : Framer) : (s.setFramer f).todo = s.todo := rfl
@[simp] theorem State.setFramer_framer (s : State) (f : Framer) : (s.setFramer f).framer = f := rfl
@[simp] theorem State.setFramer_sampled (s : State) (f : Framer) : (s.setFramer f).sampled = s.sampled := rfl
@[simp] theorem State.setFramer_result (s : State) (f : Framer) : (s.setFramer f).result = s.result := rfl

@[simp] theorem State.setSampled_regs (s : State) (d : Digest) : (s.setSampled d).regs = s.regs := rfl
@[simp] theorem State.setSampled_todo (s : State) (d : Digest) : (s.setSampled d).todo = s.todo := rfl
@[simp] theorem State.setSampled_framer (s : State) (d : Digest) : (s.setSampled d).framer = s.framer := rfl
@[simp] theorem State.setSampled_sampled (s : State) (d : Digest) : (s.setSampled d).sampled = some d := rfl
@[simp] theorem State.setSampled_result (s : State) (d : Digest) : (s.setSampled d).result = s.result := rfl

@[simp] theorem State.setResult_regs (s : State) (v : FuncResult) : (s.setResult v).regs = s.regs := rfl
@[simp] theorem State.setResult_todo (s : State) (v : FuncResult) : (s.setResult v).todo = s.todo := rfl
@[simp] theorem State.setResult_framer (s : State) (v : FuncResult) : (s.setResult v).framer = s.framer := rfl
@[simp] theorem State.setResult_sampled (s : State) (v : FuncResult) : (s.setResult v).sampled = s.sampled := rfl
@[simp] theorem State.setResult_result (s : State) (v : FuncResult) : (s.setResult v).result = v := rfl

@[simp] theorem State.setRegs_self (s : State) : s.setRegs s.regs = s := rfl

@[simp] theorem State.setTodo_self (s : State) : s.setTodo s.todo = s := rfl

@[simp] theorem State.setRegs_setRegs (s : State) (r r' : Regs) : (s.setRegs r).setRegs r' = s.setRegs r' := rfl

@[simp] theorem State.setTodo_setTodo (s : State) (d d' : List Drive) :
    (s.setTodo d).setTodo d' = s.setTodo d' := rfl

@[simp] theorem State.setRegs_setTodo (s : State) (r : Regs) (d : List Drive) :
    (s.setRegs r).setTodo d = (s.setTodo d).setRegs r := rfl

@[simp] theorem Regs.setDv_h (b : Bool) (r : Regs) : (r.setDv b).h = r.h := rfl
@[simp] theorem Regs.setDv_v (b : Bool) (r : Regs) : (r.setDv b).v = r.v := rfl
@[simp] theorem Regs.setDv_w (b : Bool) (r : Regs) : (r.setDv b).w = r.w := rfl
@[simp] theorem Regs.setDv_phase (b : Bool) (r : Regs) : (r.setDv b).phase = r.phase := rfl
@[simp] theorem Regs.setDv_t (b : Bool) (r : Regs) : (r.setDv b).t = r.t := rfl
@[simp] theorem Regs.setDv_dv (b : Bool) (r : Regs) : (r.setDv b).dv = b := rfl
@[simp] theorem Regs.setDv_err (b : Bool) (r : Regs) : (r.setDv b).err = r.err := rfl

@[simp] theorem Regs.setErr_h (r : Regs) : (r.setErr).h = r.h := rfl
@[simp] theorem Regs.setErr_v (r : Regs) : (r.setErr).v = r.v := rfl
@[simp] theorem Regs.setErr_w (r : Regs) : (r.setErr).w = r.w := rfl
@[simp] theorem Regs.setErr_phase (r : Regs) : (r.setErr).phase = r.phase := rfl
@[simp] theorem Regs.setErr_t (r : Regs) : (r.setErr).t = r.t := rfl
@[simp] theorem Regs.setErr_dv (r : Regs) : (r.setErr).dv = r.dv := rfl
@[simp] theorem Regs.setErr_err (r : Regs) : (r.setErr).err = true := rfl

@[simp] theorem raiseIllegalCommand_h (r : Regs) : (raiseIllegalCommand r).h = r.h := rfl
@[simp] theorem raiseIllegalCommand_v (r : Regs) : (raiseIllegalCommand r).v = r.v := rfl
@[simp] theorem raiseIllegalCommand_w (r : Regs) : (raiseIllegalCommand r).w = r.w := rfl
@[simp] theorem raiseIllegalCommand_phase (r : Regs) : (raiseIllegalCommand r).phase = r.phase := rfl
@[simp] theorem raiseIllegalCommand_t (r : Regs) : (raiseIllegalCommand r).t = r.t := rfl
@[simp] theorem raiseIllegalCommand_dv (r : Regs) : (raiseIllegalCommand r).dv = r.dv := rfl
@[simp] theorem raiseIllegalCommand_err (r : Regs) : (raiseIllegalCommand r).err = true := rfl

@[simp] theorem initRegs_h (r : Regs) : (initRegs r).h = iv := rfl
@[simp] theorem initRegs_v (r : Regs) : (initRegs r).v = r.v := rfl
@[simp] theorem initRegs_w (r : Regs) : (initRegs r).w = r.w := rfl
@[simp] theorem initRegs_phase (r : Regs) : (initRegs r).phase = r.phase := rfl
@[simp] theorem initRegs_t (r : Regs) : (initRegs r).t = r.t := rfl
@[simp] theorem initRegs_dv (r : Regs) : (initRegs r).dv = false := rfl
@[simp] theorem initRegs_err (r : Regs) : (initRegs r).err = r.err := rfl

@[simp] theorem loadRegs_h (blk : Block) (r : Regs) : (loadRegs blk r).h = r.h := rfl
@[simp] theorem loadRegs_v (blk : Block) (r : Regs) : (loadRegs blk r).v = varsOf r.h := rfl
@[simp] theorem loadRegs_w (blk : Block) (r : Regs) : (loadRegs blk r).w = loadW blk r.w 16 := rfl
@[simp] theorem loadRegs_phase (blk : Block) (r : Regs) : (loadRegs blk r).phase = .round := rfl
@[simp] theorem loadRegs_t (blk : Block) (r : Regs) : (loadRegs blk r).t = 0 := rfl
@[simp] theorem loadRegs_dv (blk : Block) (r : Regs) : (loadRegs blk r).dv = false := rfl
@[simp] theorem loadRegs_err (blk : Block) (r : Regs) : (loadRegs blk r).err = r.err := rfl

@[simp] theorem roundRegs_h (r : Regs) : (roundRegs r).h = r.h := rfl
@[simp] theorem roundRegs_v (r : Regs) : (roundRegs r).v = roundFn r.v (romK r.t) (roundWord r.w r.t) := rfl
@[simp] theorem roundRegs_w (r : Regs) : (roundRegs r).w = roundW r.w r.t := rfl
@[simp] theorem roundRegs_phase (r : Regs) : (roundRegs r).phase = if r.t = 63 then .update else r.phase := rfl
@[simp] theorem roundRegs_t (r : Regs) : (roundRegs r).t = if r.t = 63 then 0 else r.t + 1 := rfl
@[simp] theorem roundRegs_dv (r : Regs) : (roundRegs r).dv = r.dv := rfl
@[simp] theorem roundRegs_err (r : Regs) : (roundRegs r).err = r.err := rfl

@[simp] theorem updateRegs_h (r : Regs) : (updateRegs r).h = foldBack r.h r.v := rfl
@[simp] theorem updateRegs_v (r : Regs) : (updateRegs r).v = r.v := rfl
@[simp] theorem updateRegs_w (r : Regs) : (updateRegs r).w = r.w := rfl
@[simp] theorem updateRegs_phase (r : Regs) : (updateRegs r).phase = .idle := rfl
@[simp] theorem updateRegs_t (r : Regs) : (updateRegs r).t = r.t := rfl
@[simp] theorem updateRegs_dv (r : Regs) : (updateRegs r).dv = true := rfl
@[simp] theorem updateRegs_err (r : Regs) : (updateRegs r).err = r.err := rfl

@[simp] theorem blockRegs_h (blk : Block) (r : Regs) : (blockRegs blk r).h = compress r.h blk := by
  rw [blockRegs]
@[simp] theorem blockRegs_v (blk : Block) (r : Regs) : (blockRegs blk r).v = varsAfter r.h (sched blk) 64 := by
  rw [blockRegs]
@[simp] theorem blockRegs_w (blk : Block) (r : Regs) : (blockRegs blk r).w = sched blk := by
  rw [blockRegs]
@[simp] theorem blockRegs_phase (blk : Block) (r : Regs) : (blockRegs blk r).phase = .idle := by
  rw [blockRegs]
@[simp] theorem blockRegs_t (blk : Block) (r : Regs) : (blockRegs blk r).t = 0 := by
  rw [blockRegs]
@[simp] theorem blockRegs_dv (blk : Block) (r : Regs) : (blockRegs blk r).dv = true := by
  rw [blockRegs]
@[simp] theorem blockRegs_err (blk : Block) (r : Regs) : (blockRegs blk r).err = r.err := by
  rw [blockRegs]

@[simp] theorem resetRegs_h (r : Regs) : (resetRegs r).h = iv := rfl
@[simp] theorem resetRegs_v (r : Regs) : (resetRegs r).v = ⟨0, 0, 0, 0, 0, 0, 0, 0⟩ := rfl
@[simp] theorem resetRegs_w (r : Regs) : (resetRegs r).w = Vector.replicate 64 0 := rfl
@[simp] theorem resetRegs_phase (r : Regs) : (resetRegs r).phase = .idle := rfl
@[simp] theorem resetRegs_t (r : Regs) : (resetRegs r).t = 0 := rfl
@[simp] theorem resetRegs_dv (r : Regs) : (resetRegs r).dv = false := rfl
@[simp] theorem resetRegs_err (r : Regs) : (resetRegs r).err = false := rfl

/-- Reset writes what State.reset holds (70 R210, 10 R20). -/
theorem resetRegs_eq (r : Regs) : resetRegs r = State.reset.regs := rfl

/-! The output ports. -/

@[simp] theorem Regs.ready_eq_true (r : Regs) : r.ready = true ↔ r.phase = .idle := by simp [Regs.ready]

@[simp] theorem Regs.ready_eq_false (r : Regs) : r.ready = false ↔ r.phase ≠ .idle := by simp [Regs.ready]

@[simp] theorem Regs.digestValid_eq (r : Regs) : r.digestValid = r.dv := rfl

@[simp] theorem Regs.errPort_eq (r : Regs) : r.errPort = r.err := rfl

/-- `digest` depends on `H` alone (20 R59). -/
theorem Regs.digest_congr {r r' : Regs} (hh : r.h = r'.h) : r.digest = r'.digest := by
  simp [Regs.digest, hh]

end Sys2Proof.Machine
end

