-- ==== Sys2Proof/Laws/Ops.lean ====
section
/-! SUPPORT. The shared operations of Machine/Ops.lean: a rule that fires or does not, and the delivery of a FUNC
result. -/

namespace Sys2Proof.Machine

/-- A rule fires in its phase (00 R13). -/
theorem State.fire_of_phase {s : State} {p : Phase} (hp : s.regs.phase = p) (f : Regs → Regs) :
    s.fire p f = s.setRegs (f s.regs) := by simp [State.fire, hp]

/-- A rule whose guard does not hold writes nothing (00 R13). -/
theorem State.fire_of_ne {s : State} {p : Phase} (hp : s.regs.phase ≠ p) (f : Regs → Regs) : s.fire p f = s := by
  simp [State.fire, hp]

/-- All that a guarded rule can do to the registers. -/
theorem State.fire_regs (s : State) (p : Phase) (f : Regs → Regs) :
    (s.regs.phase = p ∧ (s.fire p f).regs = f s.regs) ∨ (s.regs.phase ≠ p ∧ (s.fire p f).regs = s.regs) := by
  by_cases hp : s.regs.phase = p
  · exact .inl ⟨hp, by rw [State.fire_of_phase hp]; rfl⟩
  · exact .inr ⟨hp, by rw [State.fire_of_ne hp]⟩

@[simp] theorem State.fire_todo (s : State) (p : Phase) (f : Regs → Regs) : (s.fire p f).todo = s.todo := by
  unfold State.fire; split <;> rfl

@[simp] theorem State.fire_framer (s : State) (p : Phase) (f : Regs → Regs) : (s.fire p f).framer = s.framer := by
  unfold State.fire; split <;> rfl

@[simp] theorem State.fire_sampled (s : State) (p : Phase) (f : Regs → Regs) :
    (s.fire p f).sampled = s.sampled := by
  unfold State.fire; split <;> rfl

@[simp] theorem State.fire_result (s : State) (p : Phase) (f : Regs → Regs) : (s.fire p f).result = s.result := by
  unfold State.fire; split <;> rfl

/-- All that the delivery of a FUNC result does: only the result latch is written. -/
theorem deliver_next {v : FuncResult} {s t : State} (h : deliver v s = .next t) : t = s.setResult v := by
  simpa [deliver] using h.symm

end Sys2Proof.Machine
end

