-- ==== Sys2Proof/Laws/Exec.lean ====
section
/-! SUPPORT. What an operation can do, said once: how `exec` ends, what it does to the core's registers, and that
it leaves the host alone. -/

namespace Sys2Proof.Machine

/-! Each guarded operation in its phase, and outside it (00 R13). -/

theorem exec_init_of_idle {s : State} (h : s.regs.phase = .idle) :
    exec .init s = .next (s.setRegs (initRegs s.regs)) := congrArg _ (State.fire_of_phase h _)

theorem exec_block_of_idle {s : State} (h : s.regs.phase = .idle) (blk : Block) :
    exec (.block blk) s = .next (s.setRegs (blockRegs blk s.regs)) := congrArg _ (State.fire_of_phase h _)

theorem exec_rsvd_of_idle {s : State} (h : s.regs.phase = .idle) :
    exec .rsvd s = .next (s.setRegs (raiseIllegalCommand s.regs)) := congrArg _ (State.fire_of_phase h _)

theorem exec_load_of_idle {s : State} (h : s.regs.phase = .idle) (blk : Block) :
    exec (.load blk) s = .next (s.setRegs (loadRegs blk s.regs)) := congrArg _ (State.fire_of_phase h _)

theorem exec_round_of_round {s : State} (h : s.regs.phase = .round) :
    exec .round s = .next (s.setRegs (roundRegs s.regs)) := congrArg _ (State.fire_of_phase h _)

theorem exec_update_of_update {s : State} (h : s.regs.phase = .update) :
    exec .update s = .next (s.setRegs (updateRegs s.regs)) := congrArg _ (State.fire_of_phase h _)

/-- An operation completes, but for a message too long to pad (60 R190, 41 R128). -/
theorem exec_next_or_long (i : Instr) (s : State) :
    (∃ t, exec i s = .next t) ∨
      (exec i s = .refused .messageTooLong ∧
        ∃ m : List Byte, (i = .pad m ∨ i = .computeDigest m) ∧ Config.maxMessageBytes ≤ m.length) := by
  cases i
  case pad m =>
    by_cases h : m.length < Config.maxMessageBytes
    · exact .inl ⟨_, if_pos h⟩
    · exact .inr ⟨if_neg h, m, .inl rfl, Nat.le_of_not_lt h⟩
  case computeDigest m =>
    by_cases h : m.length < Config.maxMessageBytes
    · exact .inl ⟨_, if_pos h⟩
    · exact .inr ⟨if_neg h, m, .inr rfl, Nat.le_of_not_lt h⟩
  all_goals exact .inl ⟨_, rfl⟩

/-- Everything an operation can do to the core's registers. -/
inductive RegsChange (r : Regs) : Regs → Prop
  | keep : RegsChange r r
  | init (hp : r.phase = .idle) : RegsChange r (initRegs r)
  | block (hp : r.phase = .idle) (blk : Block) : RegsChange r (blockRegs blk r)
  | rsvd (hp : r.phase = .idle) : RegsChange r (raiseIllegalCommand r)
  | load (hp : r.phase = .idle) (blk : Block) : RegsChange r (loadRegs blk r)
  | round (hp : r.phase = .round) : RegsChange r (roundRegs r)
  | update (hp : r.phase = .update) : RegsChange r (updateRegs r)
  | reset : RegsChange r (resetRegs r)

/-- A FUNC row's meaning that is refused for a long message, inverted. -/
theorem refuse_long_next {m : List Byte} {v : FuncResult} {s t : State}
    (h : (if m.length < Config.maxMessageBytes then deliver v s else .refused .messageTooLong) = .next t) :
    m.length < Config.maxMessageBytes ∧ t = s.setResult v := by
  split at h
  · exact ⟨‹_›, deliver_next h⟩
  · cases h

/-- The one inversion of `exec`: the registers change by one of the rules above, the host's own state is kept, and
the result latch is written only by FUNC rows, which change no register. -/
theorem exec_next {i : Instr} {s t : State} (h : exec i s = .next t) :
    (RegsChange s.regs t.regs ∧ t.result = s.result ∧ i.format ≠ .func ∨
      t.regs = s.regs ∧ i.format = .func) ∧
    t.todo = s.todo ∧ t.framer = s.framer ∧ t.sampled = s.sampled := by
  have fired : ∀ {p : Phase} {f : Regs → Regs}, (.next (s.fire p f) : Host.Outcome State Fault Refusal) = .next t →
      (s.regs.phase = p → RegsChange s.regs (f s.regs)) → RegsChange s.regs t.regs ∧ t.result = s.result ∧
        t.todo = s.todo ∧ t.framer = s.framer ∧ t.sampled = s.sampled := by
    intro p f hn hc
    cases hn
    refine ⟨?_, by simp, by simp, by simp, by simp⟩
    rcases s.fire_regs p f with ⟨hp, e⟩ | ⟨-, e⟩
    · rw [e]; exact hc hp
    · rw [e]; exact .keep
  have delivered : ∀ {v : FuncResult}, deliver v s = .next t →
      t.regs = s.regs ∧ t.todo = s.todo ∧ t.framer = s.framer ∧ t.sampled = s.sampled := by
    intro v hd; cases deliver_next hd; exact ⟨rfl, rfl, rfl, rfl⟩
  have limited : ∀ {m : List Byte} {v : FuncResult},
      (if m.length < Config.maxMessageBytes then deliver v s else .refused .messageTooLong) = .next t →
      t.regs = s.regs ∧ t.todo = s.todo ∧ t.framer = s.framer ∧ t.sampled = s.sampled := by
    intro m v hd; rw [(refuse_long_next hd).2]; exact ⟨rfl, rfl, rfl, rfl⟩
  cases i with
  | nop => cases h; exact ⟨.inl ⟨.keep, rfl, by decide⟩, rfl, rfl, rfl⟩
  | hold => cases h; exact ⟨.inl ⟨.keep, rfl, by decide⟩, rfl, rfl, rfl⟩
  | reset => cases h; exact ⟨.inl ⟨.reset, rfl, by decide⟩, rfl, rfl, rfl⟩
  | init => obtain ⟨hc, hr, hk⟩ := fired h .init; exact ⟨.inl ⟨hc, hr, by decide⟩, hk⟩
  | block blk => obtain ⟨hc, hr, hk⟩ := fired h (.block · blk); exact ⟨.inl ⟨hc, hr, by simp [Instr.format]⟩, hk⟩
  | rsvd => obtain ⟨hc, hr, hk⟩ := fired h .rsvd; exact ⟨.inl ⟨hc, hr, by decide⟩, hk⟩
  | load blk => obtain ⟨hc, hr, hk⟩ := fired h (.load · blk); exact ⟨.inl ⟨hc, hr, by simp [Instr.format]⟩, hk⟩
  | round => obtain ⟨hc, hr, hk⟩ := fired h .round; exact ⟨.inl ⟨hc, hr, by decide⟩, hk⟩
  | update => obtain ⟨hc, hr, hk⟩ := fired h .update; exact ⟨.inl ⟨hc, hr, by decide⟩, hk⟩
  | pad m => obtain ⟨hr, hk⟩ := limited h; exact ⟨.inr ⟨hr, rfl⟩, hk⟩
  | computeDigest m => obtain ⟨hr, hk⟩ := limited h; exact ⟨.inr ⟨hr, rfl⟩, hk⟩
  | add32 | xor | and | not | rotr | shr | lsigma0 | lsigma1 | usigma0 | usigma1 | ch | maj | sched | t1 | t2
  | roundfn | compress | hashblocks => obtain ⟨hr, hk⟩ := delivered h; exact ⟨.inr ⟨hr, rfl⟩, hk⟩

/-- The registers' part of `exec_next`. -/
theorem exec_regs {i : Instr} {s t : State} (h : exec i s = .next t) : RegsChange s.regs t.regs := by
  rcases (exec_next h).1 with ⟨hc, -, -⟩ | ⟨e, -⟩
  · exact hc
  · rw [e]; exact .keep

end Sys2Proof.Machine
end

