-- ==== Sys2Proof/Laws/Operands.lean ====
section
/-! SUPPORT. Bytes, words and blocks: the bit positions of 20 R55, R56, R59, and that a block and its 64 bytes
determine each other (20 R58). -/

namespace Sys2Proof.Machine

/-- Bits of a byte of a block. -/
theorem blockByte_getLsbD (b : Block) (j i : Nat) :
    (blockByte b j).getLsbD i = (decide (i < 8) && b.getLsbD (504 - 8 * j + i)) := by
  simp [blockByte, BitVec.getLsbD_extractLsb']

/-- Bits of a word of a block. -/
theorem blockWord_getLsbD (b : Block) (j i : Nat) :
    (blockWord b j).getLsbD i = (decide (i < 32) && b.getLsbD (480 - 32 * j + i)) := by
  simp [blockWord, BitVec.getLsbD_extractLsb']

@[simp] theorem blockBytes_length (b : Block) : (blockBytes b).length = 64 := by simp [blockBytes]

@[simp] theorem be64_length (n : BitVec 64) : (be64 n).length = 8 := rfl

@[simp] theorem renderDigest_length (d : Digest) : (renderDigest d).length = 64 := by simp [renderDigest]

/-- One more byte at the end of a byte string. -/
theorem blockOfBytes_append_singleton (bs : List Byte) (b : Byte) :
    blockOfBytes (bs ++ [b]) = ((blockOfBytes bs <<< 8) ||| b.setWidth 512) := by
  simp [blockOfBytes, List.foldl_append]

/-- Bit `i` of the block of a byte string is bit `i mod 8` of the byte `i div 8` from its end (20 R55). -/
theorem blockOfBytes_getLsbD (bs : List Byte) (i : Nat) :
    (blockOfBytes bs).getLsbD i =
      (decide (i < 512) && (bs.reverse.getD (i / 8) 0).getLsbD (i % 8)) := by
  induction bs using List.reverseRecOn generalizing i with
  | nil => simp [blockOfBytes]
  | append_singleton bs b ih =>
    rw [blockOfBytes_append_singleton]
    simp only [BitVec.getLsbD_or, BitVec.getLsbD_shiftLeft, BitVec.getLsbD_setWidth, List.reverse_append,
      List.reverse_cons, List.reverse_nil, List.nil_append, List.cons_append, ih]
    by_cases h512 : i < 512
    · by_cases h8 : i < 8
      · have h0 : i / 8 = 0 := by omega
        have h1 : i % 8 = i := by omega
        simp [h512, h8, h0, h1]
      · obtain ⟨q, hq⟩ : ∃ q, i / 8 = q + 1 := ⟨i / 8 - 1, by omega⟩
        have hq' : (i - 8) / 8 = q := by omega
        have hm : (i - 8) % 8 = i % 8 := by omega
        have hb : b.getLsbD i = false := BitVec.getLsbD_of_ge _ _ (by omega)
        have hl : i - 8 < 512 := by omega
        simp [h512, h8, hq, hq', hm, hb, hl]
    · simp [h512]

/-- Byte `j` of the block of 64 bytes is the `j`-th (20 R55). -/
theorem blockByte_blockOfBytes (bs : List Byte) (hl : bs.length = 64) (j : Nat) (hj : j < 64) :
    blockByte (blockOfBytes bs) j = bs[j] := by
  apply BitVec.eq_of_getLsbD_eq
  intro i hi
  rw [blockByte_getLsbD, blockOfBytes_getLsbD]
  have h1 : 504 - 8 * j + i < 512 := by omega
  have h2 : (504 - 8 * j + i) / 8 = 63 - j := by omega
  have h3 : (504 - 8 * j + i) % 8 = i := by omega
  have h4 : bs.reverse.getD (63 - j) 0 = bs[j] := by
    rw [List.getD_eq_getElem?_getD, List.getElem?_reverse (by omega)]
    have : bs.length - 1 - (63 - j) = j := by omega
    rw [this, List.getElem?_eq_getElem (by omega)]
    rfl
  rw [h2, h3, h4]
  simp [h1, hi]

/-- A block is the block of its own bytes (20 R58). -/
theorem blockOfBytes_blockBytes (b : Block) : blockOfBytes (blockBytes b) = b := by
  apply BitVec.eq_of_getLsbD_eq
  intro i hi
  rw [blockOfBytes_getLsbD]
  have hq : i / 8 < 64 := by omega
  have h : (blockBytes b).reverse.getD (i / 8) 0 = blockByte b (63 - i / 8) := by
    rw [List.getD_eq_getElem?_getD, List.getElem?_reverse (by simpa using hq)]
    have : (blockBytes b).length - 1 - i / 8 = 63 - i / 8 := by simp
    rw [this]
    simp [blockBytes, show 63 - i / 8 < 64 by omega]
  rw [h, blockByte_getLsbD]
  have h1 : 504 - 8 * (63 - i / 8) + i % 8 = i := by omega
  simp [h1, hi, show i % 8 < 8 by omega]

/-- The bytes of the block of 64 bytes are those bytes (20 R58). -/
theorem blockBytes_blockOfBytes (bs : List Byte) (hl : bs.length = 64) : blockBytes (blockOfBytes bs) = bs := by
  apply List.ext_getElem (by simp [hl])
  intro j h1 h2
  have hj : j < 64 := by simpa using h1
  simpa [blockBytes] using blockByte_blockOfBytes bs hl j hj

end Sys2Proof.Machine
end

