-- ==== Sys2Proof/Laws/Framer.lean ====
section
/-! SUPPORT. Cutting a byte string into blocks, and the lengths of the padded message
(spec/41_framer_padding.md R121, R122). -/

namespace Sys2Proof.Machine

@[simp] theorem cutBlocks_length (n : Nat) (bs : List Byte) : (cutBlocks n bs).length = n := by
  induction n generalizing bs with
  | zero => rfl
  | succ n ih => simp [cutBlocks, ih]

/-- Cutting the first `n` blocks looks at the first `64 n` bytes only. -/
theorem cutBlocks_append (n : Nat) (bs cs : List Byte) (h : 64 * n ≤ bs.length) :
    cutBlocks n (bs ++ cs) = cutBlocks n bs := by
  induction n generalizing bs with
  | zero => rfl
  | succ n ih =>
    have h64 : 64 ≤ bs.length := by omega
    simp only [cutBlocks, List.take_append_of_le_length h64, List.drop_append_of_le_length h64]
    rw [ih _ (by simp; omega)]

/-- Cutting in two parts. -/
theorem cutBlocks_add (a b : Nat) (bs : List Byte) :
    cutBlocks (a + b) bs = cutBlocks a bs ++ cutBlocks b (bs.drop (64 * a)) := by
  induction a generalizing bs with
  | zero => simp [cutBlocks]
  | succ a ih =>
    rw [show a + 1 + b = (a + b) + 1 by omega]
    simp only [cutBlocks, ih, List.drop_drop, List.cons_append]
    rw [show 64 + 64 * a = 64 * (a + 1) by omega]

/-- The padded message is a whole number of blocks (41 R121, R122). -/
theorem paddedBytes_length (m : List Byte) : (paddedBytes m).length = 64 * blockCount m.length := by
  simp only [paddedBytes, List.length_append, List.length_replicate, be64_length, List.length_singleton, zeroFill,
    blockCount]
  omega

/-- `pad` gives `N = (L + 72) div 64` blocks (41 R122). -/
@[simp] theorem pad_length (m : List Byte) : (pad m).length = blockCount m.length := by simp [pad]

end Sys2Proof.Machine
end

