-- ==== Sys2Proof/Laws/PerInstr.lean ====
section
/-! SUPPORT. Statements about every instruction as syntax, one lemma per constructor. Family `EncodedFormat`: an
instruction that has a word has a word of its own row's format, and exactly the FUNC rows have none
(spec/30_encoding.md R85). -/

namespace Sys2Proof.Laws.EncodedFormat

/-- The word of an instruction, if it has one, is of the instruction's format; the FUNC rows have none. -/
def Statement (i : Instr) : Prop := (encode i).map CodeWord.format = if i.format = .func then none else some i.format

theorem nop : Statement (.nop) := rfl

theorem init : Statement (.init) := rfl

theorem block (blk : Block) : Statement (.block blk) := rfl

theorem rsvd : Statement (.rsvd) := rfl

theorem hold : Statement (.hold) := rfl

theorem load (blk : Block) : Statement (.load blk) := rfl

theorem round : Statement (.round) := rfl

theorem update : Statement (.update) := rfl

theorem reset : Statement (.reset) := rfl

theorem add32 (x y : Word) : Statement (.add32 x y) := rfl

theorem xor (x y : Word) : Statement (.xor x y) := rfl

theorem and (x y : Word) : Statement (.and x y) := rfl

theorem not (x : Word) : Statement (.not x) := rfl

theorem rotr (x : Word) (n : Nat) : Statement (.rotr x n) := rfl

theorem shr (x : Word) (n : Nat) : Statement (.shr x n) := rfl

theorem lsigma0 (x : Word) : Statement (.lsigma0 x) := rfl

theorem lsigma1 (x : Word) : Statement (.lsigma1 x) := rfl

theorem usigma0 (x : Word) : Statement (.usigma0 x) := rfl

theorem usigma1 (x : Word) : Statement (.usigma1 x) := rfl

theorem ch (x y z : Word) : Statement (.ch x y z) := rfl

theorem maj (x y z : Word) : Statement (.maj x y z) := rfl

theorem sched (blk : Block) : Statement (.sched blk) := rfl

theorem t1 (e f g h k w : Word) : Statement (.t1 e f g h k w) := rfl

theorem t2 (a b c : Word) : Statement (.t2 a b c) := rfl

theorem roundfn (v : WorkVars) (k w : Word) : Statement (.roundfn v k w) := rfl

theorem compress (h : HashState) (blk : Block) : Statement (.compress h blk) := rfl

theorem hashblocks (h : HashState) (blks : List Block) : Statement (.hashblocks h blks) := rfl

theorem pad (m : List Byte) : Statement (.pad m) := rfl

theorem computeDigest (m : List Byte) : Statement (.computeDigest m) := rfl

end Sys2Proof.Laws.EncodedFormat
end

