-- ==== Sys2Proof/Laws/Step.lean ====
section
/-! SUPPORT. What a step can do, said once: it is one operation executed, or the host acts alone and the core's
registers are kept. -/

namespace Sys2Proof.Machine

/-- A step that runs a word. -/
theorem step_of_word {s : State} {cw : CodeWord} {rest : List Drive} {i : Instr}
    (hf : fetch s = .word cw rest) (hd : decode cw = .ok i) : step s = exec i (s.setTodo rest) := by
  simp [step, hf, runWord, hd]

/-- A step that applies a row by itself. -/
theorem step_of_direct {s : State} {i : Instr} {rest : List Drive} (hf : fetch s = .direct i rest) :
    step s = exec i (s.setTodo rest) := by
  simp [step, hf]

/-- A step in which the host acts alone. -/
theorem step_of_host {s : State} {o : Host.Outcome State Fault Refusal} (hf : fetch s = .host o) : step s = o := by
  simp [step, hf]

/-- A step that is one clock edge (60 R196). -/
theorem step_of_edge {s : State} {p : Pins} {rest : List Drive} {i : Instr}
    (hf : fetch s = fetchEdge s p rest) (hd : decode (edgeWord s.regs.phase p) = .ok i) :
    step s = exec i (s.setTodo rest) :=
  step_of_word hf hd

/-! What the host's first item comes to, one lemma per item (30 R89, R90; 41 R130). -/

theorem fetch_nil {s : State} (h : s.todo = []) : fetch s = fetchEdge s idlePins [] := by simp [fetch, h]

theorem fetch_edge {s : State} {p : Pins} {rest : List Drive} (h : s.todo = .edge p :: rest) :
    fetch s = fetchEdge s p rest := by simp [fetch, h]

theorem fetch_reset {s : State} {rest : List Drive} (h : s.todo = .reset :: rest) :
    fetch s = fetchEdge s resetPins rest := by simp [fetch, h]

theorem fetch_offer_ready {s : State} {op : BitVec 2} {blk : Block} {rest : List Drive}
    (h : s.todo = .offer op blk :: rest) (hr : s.regs.ready = true) :
    fetch s = fetchEdge s (offerPins op blk) rest := by simp only [fetch, h, hr, if_true]

theorem fetch_offer_busy {s : State} {op : BitVec 2} {blk : Block} {rest : List Drive}
    (h : s.todo = .offer op blk :: rest) (hr : s.regs.ready = false) :
    fetch s = fetchEdge s idlePins s.todo := by simp only [fetch, h, hr, Bool.false_eq_true, if_false]

theorem fetch_idle_zero {s : State} {rest : List Drive} (h : s.todo = .idle 0 :: rest) :
    fetch s = .host (.next (s.setTodo rest)) := by simp only [fetch, h]

theorem fetch_idle_succ {s : State} {n : Nat} {rest : List Drive} (h : s.todo = .idle (n + 1) :: rest) :
    fetch s = fetchEdge s idlePins (.idle n :: rest) := by simp only [fetch, h]

theorem fetch_wait_ready {s : State} {rest : List Drive} (h : s.todo = .wait :: rest) (hr : s.regs.ready = true) :
    fetch s = .host (.next (s.setTodo rest)) := by simp only [fetch, h, hr, if_true]

theorem fetch_wait_busy {s : State} {rest : List Drive} (h : s.todo = .wait :: rest) (hr : s.regs.ready = false) :
    fetch s = fetchEdge s idlePins s.todo := by simp only [fetch, h, hr, Bool.false_eq_true, if_false]

theorem fetch_expect {s : State} {e : Expectation} {rest : List Drive} (h : s.todo = .expect e :: rest) :
    fetch s = if e.holds s.regs then .host (.next (s.setTodo rest)) else .host (.fault .expectationFailed) := by
  simp only [fetch, h]

theorem fetch_hash {s : State} {m : List Byte} {rest : List Drive} (h : s.todo = .hash m :: rest) :
    fetch s = if m.length < Config.maxMessageBytes then .host (.next (s.setTodo (hashScript m ++ rest)))
      else .host (.refused .messageTooLong) := by simp only [fetch, h]

theorem fetch_digest {s : State} {rest : List Drive} (h : s.todo = .digest :: rest) :
    fetch s = if s.regs.ready && s.regs.digestValid then
        .host (.next ((s.setTodo rest).setSampled s.regs.digest))
      else fetchEdge s idlePins s.todo := by simp only [fetch, h]

theorem fetch_framerInit {s : State} {rest : List Drive} (h : s.todo = .framerInit :: rest) :
    fetch s = .host (.next ((s.setTodo rest).setFramer framerStart)) := by simp only [fetch, h]

theorem fetch_framerUpdate {s : State} {chunk : List Byte} {rest : List Drive}
    (h : s.todo = .framerUpdate chunk :: rest) :
    fetch s = if updateFits s.framer chunk then
        .host (.next ((s.setTodo (deliverBlocks (updateBlocks s.framer chunk) ++ rest)).setFramer
          (framerUpdate s.framer chunk)))
      else .host (.refused .messageTooLong) := by simp only [fetch, h]

theorem fetch_framerFinalize {s : State} {rest : List Drive} (h : s.todo = .framerFinalize :: rest) :
    fetch s = if finalizeFits s.framer then
        .host (.next ((s.setTodo (deliverBlocks (finalBlocks s.framer) ++ rest)).setFramer
          (framerFinish s.framer)))
      else .host (.refused .messageTooLong) := by simp only [fetch, h]

theorem fetch_command_ready {s : State} {op : BitVec 2} {blk : Block} {rest : List Drive}
    (h : s.todo = .command op blk :: rest) (hr : s.regs.ready = true) :
    fetch s = .word (.cmd op blk) rest := by simp only [fetch, h, hr, if_true]

theorem fetch_command_busy {s : State} {op : BitVec 2} {blk : Block} {rest : List Drive}
    (h : s.todo = .command op blk :: rest) (hr : s.regs.ready = false) :
    fetch s = fetchEdge s idlePins s.todo := by simp only [fetch, h, hr, Bool.false_eq_true, if_false]

theorem fetch_apply {s : State} {i : Instr} {rest : List Drive} (h : s.todo = .apply i :: rest) :
    fetch s = .direct i rest := by simp only [fetch, h]

/-- One edge with given inputs. -/
theorem step_edge (s : State) (p : Pins) (rest : List Drive) :
    step (s.setTodo (.edge p :: rest)) = runWord (edgeWord s.regs.phase p) (s.setTodo rest) := by
  simp [step, fetch_edge (s := s.setTodo (.edge p :: rest)) rfl, fetchEdge]

/-- An item that comes to an edge is that edge. -/
theorem step_of_fetchEdge {s : State} {p : Pins} {rest : List Drive} (h : fetch s = fetchEdge s p rest) :
    step s = step (s.setTodo (.edge p :: rest)) := by
  rw [step_edge]; simp [step, h, fetchEdge]

/-- The step of a state whose host drives an edge next. -/
theorem step_edge_of {s : State} {p : Pins} {rest : List Drive} (h : s.todo = .edge p :: rest) :
    step s = runWord (edgeWord s.regs.phase p) (s.setTodo rest) := by
  rw [step_of_fetchEdge (fetch_edge h), step_edge]

/-- An edge with `rst = 1` (70 R210). -/
theorem runWord_reset (ph : Phase) (s : State) {p : Pins} (h : p.rst = true) :
    runWord (edgeWord ph p) s = exec .reset s := by
  simp only [runWord]; rw [decode_edgeWord_reset ph h]

/-- An edge in ROUND with `rst = 0`, whatever the command inputs (30 R87). -/
theorem runWord_round (s : State) {p : Pins} (h : p.rst = false) :
    runWord (edgeWord .round p) s = exec .round s := by
  simp only [runWord]; rw [decode_edgeWord .round h]

/-- An edge in UPDATE with `rst = 0`, whatever the command inputs (30 R87). -/
theorem runWord_update (s : State) {p : Pins} (h : p.rst = false) :
    runWord (edgeWord .update p) s = exec .update s := by
  simp only [runWord]; rw [decode_edgeWord .update h]

/-- An edge in IDLE with `rst = 0` (30 R87). -/
theorem runWord_idle (s : State) {p : Pins} (h : p.rst = false) :
    runWord (edgeWord .idle p) s = exec (if p.cmdValid then decodeOffer p.cmdOp p.blockIn else .hold) s := by
  simp only [runWord]; rw [decode_edgeWord .idle h]

/-- Where the host acts alone and the step goes on, only the host's own state changes. -/
theorem fetch_host_next {s t : State} (hf : fetch s = .host (.next t)) :
    t.regs = s.regs ∧ t.result = s.result := by
  unfold fetch at hf
  split at hf
  all_goals (try simp only [fetchEdge, reduceCtorEq] at hf)
  all_goals (try split at hf)
  all_goals (first | (cases hf; exact ⟨rfl, rfl⟩) | (cases hf))

/-- Every word a step takes decodes (30 R85, R87). -/
theorem fetch_word_decodes {s : State} {cw : CodeWord} {rest : List Drive} (hf : fetch s = .word cw rest) :
    ∃ i, decode cw = .ok i := by
  have edge : ∀ {p : Pins} {r : List Drive}, fetchEdge s p r = .word cw rest → ∃ i, decode cw = .ok i := by
    intro p r h
    cases h
    exact decode_edgeWord_ok _ _
  unfold fetch at hf
  split at hf
  all_goals (try split at hf)
  all_goals (first | exact edge hf | (cases hf; exact ⟨_, rfl⟩) | cases hf)

/-- The one inversion of `step`: an operation was executed with the host's list advanced, or the host acted alone. -/
theorem step_next {s t : State} (h : step s = .next t) :
    (∃ i rest, exec i (s.setTodo rest) = .next t) ∨ fetch s = .host (.next t) := by
  cases hf : fetch s with
  | word cw rest =>
    obtain ⟨i, hi⟩ := fetch_word_decodes hf
    exact .inl ⟨i, rest, by rw [← step_of_word hf hi]; exact h⟩
  | direct i rest => exact .inl ⟨i, rest, by rw [← step_of_direct hf]; exact h⟩
  | host o => rw [step_of_host hf] at h; rw [h]; exact .inr rfl

/-- Everything a step can do to the core's registers. -/
theorem step_regs {s t : State} (h : step s = .next t) : RegsChange s.regs t.regs := by
  rcases step_next h with ⟨i, rest, he⟩ | hf
  · simpa using exec_regs he
  · rw [(fetch_host_next hf).1]; exact .keep

end Sys2Proof.Machine
end

