-- ==== Sys2Proof/Laws/Run.lean ====
section
/-! SUPPORT. Runs of several steps, one step at a time and in two parts. -/

namespace Sys2Proof.Machine

@[simp] theorem run_zero (s : State) : run 0 s = .next s := rfl

/-- What the host's run does first, for any machine. -/
theorem coreRun_succ (M : Host.Core) {s t : M.State} (h : M.step s = .next t) (n : Nat) :
    M.run (n + 1) s = M.run n t := by
  simp only [Host.Core.run, h]

theorem coreRun_succ_fault (M : Host.Core) {s : M.State} {r : M.Fault} (h : M.step s = .fault r) (n : Nat) :
    M.run (n + 1) s = .fault r := by
  simp only [Host.Core.run, h]

theorem coreRun_succ_refused (M : Host.Core) {s : M.State} {r : M.Refusal} (h : M.step s = .refused r) (n : Nat) :
    M.run (n + 1) s = .refused r := by
  simp only [Host.Core.run, h]

/-- A run whose first step goes on. -/
theorem run_succ {s t : State} (h : step s = .next t) (n : Nat) : run (n + 1) s = run n t :=
  coreRun_succ Sys2Proof.core h n

theorem run_succ_fault {s : State} {r : Fault} (h : step s = .fault r) (n : Nat) : run (n + 1) s = .fault r :=
  coreRun_succ_fault Sys2Proof.core h n

theorem run_succ_refused {s : State} {r : Refusal} (h : step s = .refused r) (n : Nat) :
    run (n + 1) s = .refused r :=
  coreRun_succ_refused Sys2Proof.core h n

/-- A run of one step. -/
theorem run_one (s : State) : run 1 s = step s := by
  cases h : step s with
  | next t => exact run_succ h 0
  | fault r => exact run_succ_fault h 0
  | refused r => exact run_succ_refused h 0

/-- A run whose first step goes on, inverted. -/
theorem run_succ_next {n : Nat} {s u : State} (h : run (n + 1) s = .next u) :
    ∃ t, step s = .next t ∧ run n t = .next u := by
  cases hs : step s with
  | next t => exact ⟨t, rfl, by rw [← run_succ hs]; exact h⟩
  | fault r => rw [run_succ_fault hs] at h; cases h
  | refused r => rw [run_succ_refused hs] at h; cases h

/-- A run in two parts. -/
theorem run_add {m : Nat} {s t : State} (h : run m s = .next t) (n : Nat) : run (m + n) s = run n t := by
  induction m generalizing s with
  | zero => cases h; rw [Nat.zero_add]
  | succ m ih =>
    obtain ⟨u, hs, hu⟩ := run_succ_next h
    rw [show m + 1 + n = (m + n) + 1 by omega, run_succ hs]
    exact ih hu

/-! The computation tracked along a run. -/

@[simp] theorem trackRun_zero (s : State) (c : Option HashRun) : trackRun 0 s c = c := rfl

theorem trackRun_succ {s t : State} (h : step s = .next t) (n : Nat) (c : Option HashRun) :
    trackRun (n + 1) s c = trackRun n t (trackStep s c) := by
  simp only [trackRun, h]

/-- Tracking a run in two parts. -/
theorem trackRun_add {m : Nat} {s t : State} (h : run m s = .next t) (n : Nat) (c : Option HashRun) :
    trackRun (m + n) s c = trackRun n t (trackRun m s c) := by
  induction m generalizing s c with
  | zero => cases h; rw [Nat.zero_add, trackRun_zero]
  | succ m ih =>
    obtain ⟨u, hs, hu⟩ := run_succ_next h
    rw [show m + 1 + n = (m + n) + 1 by omega, trackRun_succ hs, trackRun_succ hs]
    exact ih hu _

/-- A step that runs a word, tracked. -/
theorem trackStep_of_word {s : State} {cw : CodeWord} {rest : List Drive} {i : Instr}
    (hf : fetch s = .word cw rest) (hd : decode cw = .ok i) (c : Option HashRun) :
    trackStep s c = trackOperation s.regs i c := by
  simp only [trackStep, hf, hd]

/-- A step that is one clock edge, tracked. -/
theorem trackStep_of_edge {s : State} {p : Pins} {rest : List Drive} {i : Instr}
    (hf : fetch s = fetchEdge s p rest) (hd : decode (edgeWord s.regs.phase p) = .ok i) (c : Option HashRun) :
    trackStep s c = trackOperation s.regs i c :=
  trackStep_of_word hf hd c

/-- Outside IDLE an edge with `rst = 0` accepts nothing (44 R175). -/
theorem trackStep_busy {s : State} {p : Pins} {rest : List Drive} (hf : fetch s = fetchEdge s p rest)
    (hr : p.rst = false) (hp : s.regs.phase ≠ .idle) (c : Option HashRun) : trackStep s c = c := by
  have hd := decode_edgeWord s.regs.phase hr
  cases h : s.regs.phase with
  | idle => exact absurd h hp
  | round => rw [h] at hd; exact trackStep_of_edge hf (by rw [h]; exact hd) c
  | update => rw [h] at hd; exact trackStep_of_edge hf (by rw [h]; exact hd) c

/-- The host acts alone and samples no digest. -/
theorem trackStep_of_host {s : State} {o : Host.Outcome State Fault Refusal} (hf : fetch s = .host o)
    (hn : ∀ rest, s.todo ≠ .digest :: rest) (c : Option HashRun) : trackStep s c = c := by
  simp only [trackStep, hf]

/-- DIGEST at a port that may be sampled, tracked (30 R90). -/
theorem trackStep_of_digest {s : State} {rest : List Drive} (h : s.todo = .digest :: rest)
    (hr : s.regs.ready = true) (hv : s.regs.digestValid = true) (c : Option HashRun) :
    trackStep s c = c.map (·.sample s.regs.digest) := by
  have hf := fetch_digest h
  simp only [hr, hv, Bool.and_self, if_true] at hf
  simp only [trackStep, hf, h]

end Sys2Proof.Machine
end

