-- ==== Sys2Proof/Laws/Rounds.lean ====
section
/-! SUPPORT. The registers while a block is in progress, as one value, and how LOAD, ROUND and UPDATE move between
those values (spec/43_compression_round_fsm.md R160). The proofs rewrite and generalize before they close by rfl: the
kernel must never compare `sched blk` or `varsAfter s w 64` with something it is only equal to by computation. -/

namespace Sys2Proof.Machine

/-- The registers after `n` rounds of a block over the registers `r` it was accepted in, the schedule registers
being `w`. -/
def midRegs (r : Regs) (blk : Block) (n : Nat) (w : Schedule) : Regs :=
  ⟨r.h, varsAfter r.h (sched blk) n, w, if n = 64 then .update else .round, BitVec.ofNat 6 n, false, r.err⟩

/-- LOAD starts a block (43 R153). -/
theorem loadRegs_eq_mid (r : Regs) (blk : Block) : loadRegs blk r = midRegs r blk 0 (loadW blk r.w 16) := by
  rw [loadRegs, midRegs, varsAfter_zero]; rfl

/-- ROUND goes on by one round (43 R155). -/
theorem roundRegs_mid {r : Regs} {blk : Block} {n : Nat} (hn : n < 64) {w : Schedule}
    (hw : AgreeUpTo w blk (max 16 n)) :
    roundRegs (midRegs r blk n w) = midRegs r blk (n + 1) (roundW w (BitVec.ofNat 6 n)) := by
  have en : (BitVec.ofNat 6 n).toNat = n := by simp; omega
  have hword := roundWord_of_agree (w := w) (blk := blk) (t := BitVec.ofNat 6 n) (by rw [en]; exact hw)
  simp only [midRegs, roundRegs, hword, varsAfter_succ]
  generalize roundFn _ _ _ = x
  by_cases h63 : n = 63
  · subst h63; rfl
  · have h64 : BitVec.ofNat 6 n ≠ 63 := by
      intro e
      have := congrArg BitVec.toNat e
      rw [en] at this
      exact h63 (by simpa using this)
    have h1 : ¬ n + 1 = 64 := by omega
    have ht : (BitVec.ofNat 6 n + 1) = BitVec.ofNat 6 (n + 1) := by
      apply BitVec.eq_of_toNat_eq; rw [BitVec.toNat_add, en]; simp
    simp only [if_neg h64, if_neg h1, if_neg (show ¬ n = 64 by omega), ht]

/-- UPDATE ends a block with what the whole command leaves (43 R158, R160). -/
theorem updateRegs_mid (r : Regs) (blk : Block) : updateRegs (midRegs r blk 64 (sched blk)) = blockRegs blk r := by
  rw [updateRegs, midRegs, blockRegs, compress_eq]
  generalize varsAfter r.h (sched blk) 64 = x
  generalize sched blk = y
  rfl

end Sys2Proof.Machine
end

