-- ==== Sys2Proof/Tests/Slice0.lean ====
section
/-! SUPPORT. The model's own tests. Expected values are the spec's: sections named "95" are of
spec/95_test_vectors.md, rule examples are named by their rule. -/

namespace Sys2Proof.Tests

-- one theorem at a time: each waiting one would hold a thread with a deep stack of its own
set_option Elab.async false

open Sys2Proof.Machine

/-! ## Helpers -/

/-- The state an outcome goes on in; the reset state where it stops (a test that names a value shows it does not). -/
def after (o : Host.Outcome State Fault Refusal) : State :=
  match o with
  | .next t => t
  | .fault _ => State.reset
  | .refused _ => State.reset

/-- What a FUNC row delivers. -/
def valueOf (i : Instr) : FuncResult := (after (exec i State.reset)).result

/-- The padded "abc" block (95 2.2). -/
def abcBlock : Block := 0x61626380000000000000000000000000000000000000000000000000000000000000000000000000000000000000000000000000000000000000000000000018

/-- The digest of "abc" as a hash state (95 6.1). -/
def habc : HashState :=
  ⟨0xba7816bf, 0x8f01cfea, 0x414140de, 0x5dae2223, 0xb00361a3, 0x96177a9c, 0xb410ff61, 0xf20015ad⟩

/-- The working variables after round 63 of "abc" (95 6.2). -/
def vabc : WorkVars :=
  ⟨0x506e3058, 0xd39a2165, 0x04d24d6c, 0xb85e2ce9, 0x5ef50f24, 0xfb121210, 0x948d25b6, 0x961f4894⟩

/-- In ROUND at round `t`, the schedule registers holding the "abc" block's words and zeros. -/
def inRound (t : BitVec 6) : State :=
  State.reset.setRegs { loadRegs abcBlock State.reset.regs with t := t }

/-- In UPDATE, after the 64 rounds of "abc". -/
def inUpdate : State := State.reset.setRegs { State.reset.regs with phase := .update, v := vabc }

/-- Idle after the message "abc", a fault recorded or not. -/
def idleAbc (err : Bool) : State := State.reset.setRegs { State.reset.regs with h := habc, dv := true, err := err }

/-- `n` bytes "a". -/
def letters (n : Nat) : List Byte := List.replicate n 0x61

/-! ## Well-formedness: one ill-formed term for each check, refused -/

theorem test_rotr_zero_refused : (Instr.rotr 1 0).wellFormed = false := by decide +kernel
theorem test_rotr_32_refused : (Instr.rotr 1 32).wellFormed = false := by decide +kernel
theorem test_rotr_31_accepted : (Instr.rotr 1 31).wellFormed = true := by decide +kernel
theorem test_shr_zero_refused : (Instr.shr 1 0).wellFormed = false := by decide +kernel
theorem test_shr_32_refused : (Instr.shr 1 32).wellFormed = false := by decide +kernel

/-- `n` zero bytes, of the length asked for; the length is a variable so that nothing unrolls the list. -/
theorem zeros_length (n : Nat) : (List.replicate n (0 : Byte)).length = n := List.length_replicate

theorem pad_refused {m : List Byte} (h : ¬ m.length < 2 ^ 61) : (Instr.pad m).wellFormed = false :=
  decide_eq_false h

theorem compute_digest_refused {m : List Byte} (h : ¬ m.length < 2 ^ 61) :
    (Instr.computeDigest m).wellFormed = false :=
  decide_eq_false h

theorem pad_accepted {m : List Byte} (h : m.length < 2 ^ 61) : (Instr.pad m).wellFormed = true :=
  decide_eq_true h

theorem test_pad_long_refused : ∃ m : List Byte, m.length = 2 ^ 61 ∧ (Instr.pad m).wellFormed = false :=
  ⟨_, zeros_length (2 ^ 61), pad_refused (by rw [zeros_length]; exact Nat.lt_irrefl _)⟩

theorem test_compute_digest_long_refused :
    ∃ m : List Byte, m.length = 2 ^ 61 ∧ (Instr.computeDigest m).wellFormed = false :=
  ⟨_, zeros_length (2 ^ 61), compute_digest_refused (by rw [zeros_length]; exact Nat.lt_irrefl _)⟩

theorem test_pad_longest_accepted : ∃ m : List Byte, m.length = 2 ^ 61 - 1 ∧ (Instr.pad m).wellFormed = true :=
  ⟨_, zeros_length (2 ^ 61 - 1), pad_accepted (by rw [zeros_length]; exact Nat.sub_lt (by norm_num) Nat.one_pos)⟩

/-! ## Decoding: words written out from 30 R81, R85 and 95 6.9 -/

theorem test_decode_nop : decode (.cmd 0b00 abcBlock) = .ok .nop := by decide +kernel
theorem test_decode_init : decode (.cmd 0b01 abcBlock) = .ok .init := by decide +kernel
theorem test_decode_block : decode (.cmd 0b10 abcBlock) = .ok (.block abcBlock) := by decide +kernel
theorem test_decode_rsvd : decode (.cmd 0b11 abcBlock) = .ok .rsvd := by decide +kernel
theorem test_decode_hold : decode (.micro 0b00011 abcBlock) = .ok .hold := by decide +kernel
theorem test_decode_load : decode (.micro 0b00110 abcBlock) = .ok (.load abcBlock) := by decide +kernel
theorem test_decode_round : decode (.micro 0b01111 abcBlock) = .ok .round := by decide +kernel
theorem test_decode_update : decode (.micro 0b10101 abcBlock) = .ok .update := by decide +kernel
theorem test_decode_reset : decode (.pin 0b1) = .ok .reset := by decide +kernel

/-- 95 6.9: the 129 digits of `BLOCK <abc block>`, `28` and 127 zeros, `3` and any digits. -/
theorem test_decode_514_bit_words :
    decode (CodeWord.ofCmdWord 0x261626380000000000000000000000000000000000000000000000000000000000000000000000000000000000000000000000000000000000000000000000018) =
      .ok (.block abcBlock) ∧
    decode (CodeWord.ofCmdWord (0x28 <<< 508)) = .ok (.block (0x8 <<< 508)) ∧
    decode (CodeWord.ofCmdWord (0x3 <<< 512 ||| 0x7)) = .ok .rsvd := by decide +kernel

/-- The first row of 30 R85's remark: the three one-edge commands as selectors. -/
theorem test_decode_command_selectors :
    decode (.micro 0b00100 0) = .ok .nop ∧ decode (.micro 0b00101 0) = .ok .init ∧
    decode (.micro 0b00111 0) = .ok .rsvd := by decide +kernel

/-- `phase = 0b11` matches no row, and `rst = 0` selects nothing by itself (30 R85). -/
theorem test_decode_rejects :
    decode (.micro 0b11000 0) = .error .phaseUnused ∧ decode (.micro 0b11111 0) = .error .phaseUnused ∧
    decode (.pin 0b0) = .error .pinLow := by decide +kernel

/-- The decoder on bytes refuses what has not the format's length, has high bits, or no encoding. -/
theorem test_decode_bytes_rejects :
    decodeBytes .cmd [] = .error .wrongLength ∧ decodeBytes .micro [0x06] = .error .wrongLength ∧
    decodeBytes .cmd (0x04 :: List.replicate 64 0) = .error .highBits ∧
    decodeBytes .micro (0x20 :: List.replicate 64 0) = .error .highBits ∧
    decodeBytes .pin [0x02] = .error .highBits ∧ decodeBytes .func [] = .error .noEncoding := by decide +kernel

theorem test_decode_table_words :
    decodeTableWord 2 0b00 = some .nop ∧ decodeTableWord 2 0b01 = some .init ∧
    decodeTableWord 2 0b10 = some (.block 0) ∧ decodeTableWord 2 0b11 = some .rsvd ∧
    decodeTableWord 5 0b00000 = some .hold ∧ decodeTableWord 5 0b00110 = some (.load 0) ∧
    decodeTableWord 5 0b01000 = some .round ∧ decodeTableWord 5 0b10000 = some .update ∧
    decodeTableWord 1 0b1 = some .reset ∧ decodeTableWord 5 0b11000 = none := by decide +kernel

theorem test_decode_table_words_in_whole_bytes :
    decodeTableWord 8 0b10 = some (.block 0) ∧ decodeTableWord 8 0b11 = some .rsvd ∧
    decodeTableWord 8 0b00110 = some (.load 0) ∧ decodeTableWord 8 0b01000 = some .round ∧
    decodeTableWord 8 0b10000 = some .update ∧ decodeTableWord 8 0b100000 = none := by decide +kernel

/-- FUNC rows carry `"encoding": "none"` (30 R85); one of each family. -/
theorem test_func_rows_have_no_word :
    encode (.add32 1 2) = none ∧ encode (.sched 0) = none ∧ encode (.roundfn vabc 0 0) = none ∧
    encode (.hashblocks iv []) = none ∧ encode (.pad []) = none := by decide +kernel

/-! ## The commands (95 6.1) -/

theorem test_nop_keeps_digest :
    after (exec .nop (idleAbc true)) = idleAbc true ∧ after (exec .hold (idleAbc true)) = idleAbc true := by decide +kernel

theorem test_init_discards_digest :
    (after (exec .init (idleAbc true))).regs.h = iv ∧ (after (exec .init (idleAbc true))).regs.dv = false ∧
    (after (exec .init (idleAbc true))).regs.err = true := by decide +kernel

theorem test_init_busy_lost : after (exec .init inUpdate) = inUpdate := by decide +kernel

theorem test_block_abc :
    (after (exec (.block abcBlock) State.reset)).regs.h = habc ∧
    (after (exec (.block abcBlock) State.reset)).regs.dv = true ∧
    (after (exec (.block abcBlock) State.reset)).regs.err = false := by decide +kernel

/-- The missing-INIT row of 95 6.1, with a fault recorded. -/
theorem test_block_chains :
    (after (exec (.block abcBlock) (idleAbc true))).regs.digest =
      0x1de51655e1a8ca5f570c062c6fef497dd8110762bd8a7a48dd95482f7d22e0a2 ∧
    (after (exec (.block abcBlock) (idleAbc true))).regs.err = true := by decide +kernel

theorem test_rsvd_sets_err :
    after (exec .rsvd (idleAbc false)) = idleAbc true ∧ after (exec .rsvd (idleAbc true)) = idleAbc true := by decide +kernel

theorem test_rsvd_busy_raises_nothing : (after (exec .rsvd inUpdate)).regs.err = false := by decide +kernel

/-! ## The micro-operations and reset (43 R153, R155, R158; 95 3.2, 3.3, 6.2; 70 R210) -/

theorem test_load_abc :
    (after (exec (.load abcBlock) State.reset)).regs.w[0] = 0x61626380 ∧
    (after (exec (.load abcBlock) State.reset)).regs.w[15] = 0x00000018 ∧
    (after (exec (.load abcBlock) State.reset)).regs.v.e = 0x510e527f ∧
    (after (exec (.load abcBlock) State.reset)).regs.phase = .round := by decide +kernel

theorem test_load_clears_valid_and_keeps_digest :
    (after (exec (.load abcBlock) (idleAbc true))).regs.dv = false ∧
    (after (exec (.load abcBlock) (idleAbc true))).regs.h = habc ∧
    (after (exec (.load abcBlock) (idleAbc true))).regs.ready = false := by decide +kernel

/-- Round 0 of "abc" (43 R154). -/
theorem test_round_zero :
    (after (exec .round (inRound 0))).regs.v =
      ⟨0x5d6aebcd, 0x6a09e667, 0xbb67ae85, 0x3c6ef372, 0xfa2a4622, 0x510e527f, 0x9b05688c, 0x1f83d9ab⟩ ∧
    (after (exec .round (inRound 0))).regs.t = 1 ∧
    (after (exec .round (inRound 0))).regs.w = (inRound 0).regs.w := by decide +kernel

/-- Round 17 writes word 17, from words 15, 10, 2 and 1 (42 R142); round 63 ends the rounds (43 R155). -/
theorem test_round_derives_word :
    (after (exec .round (inRound 17))).regs.w[17] = 0x000f0000 ∧
    (after (exec .round (inRound 63))).regs.phase = .update ∧ (after (exec .round (inRound 63))).regs.t = 0 := by
  decide +kernel

theorem test_update_abc :
    (after (exec .update inUpdate)).regs.h = habc ∧ (after (exec .update inUpdate)).regs.dv = true ∧
    (after (exec .update inUpdate)).regs.ready = true := by decide +kernel

theorem test_reset_in_round :
    (after (exec .reset (inRound 30))).regs = State.reset.regs ∧
    (after (exec .reset (idleAbc true))).regs.err = false := by decide +kernel

/-! ## The word functions (95 4.1 to 4.5) -/

theorem test_add32_wraps : valueOf (.add32 0xffffffff 0xffffffff) = .word 0xfffffffe := by decide +kernel
theorem test_add32 : valueOf (.add32 0x12345678 0xf0000000) = .word 0x02345678 := by decide +kernel
theorem test_xor : valueOf (.xor 0xf0f0f0f0 0xcccccccc) = .word 0x3c3c3c3c := by decide +kernel
theorem test_and : valueOf (.and 0xf0f0f0f0 0xcccccccc) = .word 0xc0c0c0c0 := by decide +kernel
theorem test_not : valueOf (.not 0xf0f0f0f0) = .word 0x0f0f0f0f := by decide +kernel
theorem test_rotr : valueOf (.rotr 0x12345678 7) = .word 0xf02468ac := by decide +kernel
theorem test_rotr_ends :
    valueOf (.rotr 0x00000001 1) = .word 0x80000000 ∧ valueOf (.rotr 0x80000000 31) = .word 0x00000001 := by decide +kernel
theorem test_shr : valueOf (.shr 0x12345678 3) = .word 0x02468acf := by decide +kernel
theorem test_shr_zeros : valueOf (.shr 0x80000000 10) = .word 0x00200000 := by decide +kernel
theorem test_lsigma0 : valueOf (.lsigma0 0xdeadbeef) = .word 0xabd31b0b := by decide +kernel
theorem test_lsigma0_one : valueOf (.lsigma0 0x00000001) = .word 0x02004000 := by decide +kernel
theorem test_lsigma1 : valueOf (.lsigma1 0xdeadbeef) = .word 0x689dbfec := by decide +kernel
theorem test_lsigma1_top : valueOf (.lsigma1 0x80000000) = .word 0x00205000 := by decide +kernel
theorem test_usigma0 : valueOf (.usigma0 0x6a09e667) = .word 0xce20b47e := by decide +kernel
theorem test_usigma0_one : valueOf (.usigma0 0x00000001) = .word 0x40080400 := by decide +kernel
theorem test_usigma1 : valueOf (.usigma1 0x510e527f) = .word 0x3587272b := by decide +kernel
theorem test_usigma1_one : valueOf (.usigma1 0x00000001) = .word 0x04200080 := by decide +kernel
theorem test_ch : valueOf (.ch 0xf0f0f0f0 0xcccccccc 0xaaaaaaaa) = .word 0xcacacaca := by decide +kernel
theorem test_ch_round_zero : valueOf (.ch 0x510e527f 0x9b05688c 0x1f83d9ab) = .word 0x1f85c98c := by decide +kernel
theorem test_maj : valueOf (.maj 0xf0f0f0f0 0xcccccccc 0xaaaaaaaa) = .word 0xe8e8e8e8 := by decide +kernel
theorem test_maj_round_zero : valueOf (.maj 0x6a09e667 0xbb67ae85 0x3c6ef372) = .word 0x3a6fe667 := by decide +kernel
theorem test_t1 :
    valueOf (.t1 0x510e527f 0x9b05688c 0x1f83d9ab 0x5be0cd19 0x428a2f98 0x61626380) = .word 0x54da50e8 := by decide +kernel
theorem test_t1_wraps :
    valueOf (.t1 0xffffffff 0xffffffff 0xffffffff 0xffffffff 0xc67178f2 0xffffffff) = .word 0xc67178ee := by decide +kernel
theorem test_t2 : valueOf (.t2 0x6a09e667 0xbb67ae85 0x3c6ef372) = .word 0x08909ae5 := by decide +kernel

/-- Round 0 of "abc" (43 R154). -/
theorem test_roundfn :
    valueOf (.roundfn (varsOf iv) 0x428a2f98 0x61626380) =
      .vars ⟨0x5d6aebcd, 0x6a09e667, 0xbb67ae85, 0x3c6ef372, 0xfa2a4622, 0x510e527f, 0x9b05688c, 0x1f83d9ab⟩ := by
  decide +kernel

/-! ## Schedule, compression, padding, digests (95 3 and 5) -/

/-- Words of the "abc" schedule and of the all-ones block's (95 3.2, 3.5). -/
theorem test_sched :
    (sched abcBlock)[18] = 0x7da86405 ∧ (sched abcBlock)[63] = 0x12b1edeb ∧
    (sched (BitVec.allOnes 512))[18] = 0x20099be4 := by decide +kernel

/-- 95 3.5. -/
theorem test_compress_zero :
    valueOf (.compress ⟨0, 0, 0, 0, 0, 0, 0, 0⟩ 0) =
      .hash ⟨0x7ca51614, 0x425c3ba8, 0xce54dd2f, 0xc2020ae7, 0xb6e574d1, 0x98136d0f, 0xae7e26cc, 0xbf0be7a6⟩ := by
  decide +kernel

/-- (B, B) from IV (95 6.6). -/
theorem test_hashblocks :
    valueOf (.hashblocks iv [abcBlock, abcBlock]) =
      .hash ⟨0x1de51655, 0xe1a8ca5f, 0x570c062c, 0x6fef497d, 0xd8110762, 0xbd8a7a48, 0xdd95482f, 0x7d22e0a2⟩ := by
  decide +kernel

/-- The number of blocks at the boundary lengths (41 R122). -/
theorem test_pad_counts :
    [0, 54, 55, 56, 63, 64, 65, 119, 120].map (fun n => (pad (letters n)).length) = [1, 1, 1, 2, 2, 2, 2, 2, 3] := by
  decide +kernel

/-- "abc", the last block of 56 letters (95 2.2, 2.3; 41 R125). -/
theorem test_pad_blocks :
    valueOf (.pad [0x61, 0x62, 0x63]) = .blocks [abcBlock] ∧ (pad (letters 56))[1]? = some 0x1c0 ∧
    valueOf (.pad []) = .blocks [0x80 <<< 504] := by decide +kernel

/-- 95 5.1. -/
theorem test_digest_64 :
    renderDigest (digestOf (computeDigest (letters 64))) =
      "ffe054fe7ae0cb6dc65c3af9b61d5209f439851db43d0ba5997337df154668eb".toList := by decide +kernel

/-- 95 5.5: a word with leading zero digits, through the row and the renderer. -/
theorem test_compute_digest_02 :
    valueOf (.computeDigest [0x02]) =
      .hash ⟨0xdbc1b4c9, 0x00ffe48d, 0x575b5da5, 0xc6380401, 0x25f65db0, 0xfe3e2449, 0x4b76ea98, 0x6457d986⟩ ∧
    renderDigest 0xdbc1b4c900ffe48d575b5da5c638040125f65db0fe3e24494b76ea986457d986 =
      "dbc1b4c900ffe48d575b5da5c638040125f65db0fe3e24494b76ea986457d986".toList := by decide +kernel

/-- 43 R160 on 95 6.2's block: the table words LOAD and BLOCK run as the next step from reset. -/
theorem test_table_words_run :
    (after (step (State.reset.withFetchWord 5 0b00110))).regs.phase = .round ∧
    (after (step (State.reset.withFetchWord 5 0b10000))).regs.dv = true ∧
    (after (step (State.reset.withFetchWord 2 0b11))).regs.err = true := by decide +kernel

/-- The block 64 zero bytes as a table word of 2 bits (95 6.1). -/
theorem test_table_block_runs :
    (after (step (State.reset.withFetchWord 2 0b10))).regs.digest =
      0xda5698be17b9b46962335799779fbeca8ce5d491c0d26243bafef9ea1837a9d8 := by decide +kernel

/-! ## The host's script (30 R89, R90; 41 R132) -/

theorem test_expect :
    step (State.reset.setTodo [.expect (.ready true)]) = .next State.reset ∧
    step (State.reset.setTodo [.expect (.err true)]) = .fault .expectationFailed := ⟨rfl, rfl⟩

theorem test_hash_expands :
    (after (step (State.reset.setTodo [.hash [0x61, 0x62, 0x63]]))).todo =
      [.offer 0b01 0, .offer 0b10 abcBlock, .wait] := by decide +kernel

theorem test_digest_samples :
    (after (step ((idleAbc false).setTodo [.digest]))).sampled = some (digestOf habc) := by decide +kernel

theorem test_framer_update_emits :
    (after (step (State.reset.setTodo [.framerUpdate (letters 65)]))).framer = ⟨512, [0x61]⟩ ∧
    ((after (step (State.reset.setTodo [.framerUpdate (letters 65)]))).todo).length = 1 := by decide +kernel

theorem test_nothing_to_do_holds : step State.reset = .next State.reset := rfl

/-! ## Witnesses: for each statement with hypotheses, what meets them, for each clause -/

/-- Inputs with `rst = 0` that offer a command, or do not. -/
def pins (valid : Bool) (op : BitVec 2) : Pins := ⟨false, valid, op, abcBlock⟩

/-- A host that drives one edge next. -/
def withEdge (s : State) (p : Pins) : State := s.setTodo [.edge p]

/-- In ROUND at round 0 of "abc", right after LOAD. -/
def midBlock : State := State.reset.setRegs (loadRegs abcBlock State.reset.regs)

theorem witness_EncodedInstructionDecodesBack :
    encode (.block abcBlock) = some (.cmd 0b10 abcBlock) ∧ encode (.load abcBlock) = some (.micro 0b00110 abcBlock) ∧
    encode .reset = some (.pin 1) := ⟨rfl, rfl, rfl⟩

theorem witness_EdgeSelectsByPhaseAndOffer :
    resetPins.rst = true ∧ (pins true 3).rst = false ∧ (pins false 3).cmdValid = false ∧
    (pins true 0).cmdValid = true ∧ (pins true 0).cmdOp = 0b00 ∧ (pins true 1).cmdOp = 0b01 ∧
    (pins true 2).cmdOp = 0b10 ∧ (pins true 3).cmdOp = 0b11 := ⟨rfl, rfl, rfl, rfl, rfl, rfl, rfl, rfl⟩

theorem witness_SelectorDecodesToItsTableRow :
    (0b00011#5 &&& 0b11100 = 0b00000) ∧ (0b01111#5 &&& 0b11000 = 0b01000) ∧ (0b10111#5 &&& 0b11000 = 0b10000) ∧
    (0b11111#5 &&& 0b11000 = 0b11000) := by decide +kernel

theorem witness_StepRunsTheDecodedInstruction :
    (fetch (withEdge State.reset (pins true 2)) = .word (.micro 0b00110 abcBlock) [] ∧
      decode (.micro 0b00110 abcBlock) = .ok (.load abcBlock)) ∧
    (fetch (State.reset.setTodo [.command 0b10 abcBlock]) = .word (.cmd 0b10 abcBlock) [] ∧
      decode (.cmd 0b10 abcBlock) = .ok (.block abcBlock)) ∧
    fetch (State.reset.setTodo [.apply (.add32 1 2)]) = .direct (.add32 1 2) [] := ⟨⟨rfl, rfl⟩, ⟨rfl, rfl⟩, rfl⟩

/-- One word for each phase the statement names. -/
theorem witness_PlacedWordRunsNext :
    decodeTableWord 5 0b00110 = some (.load 0) ∧ decodeTableWord 2 0b11 = some .rsvd ∧
    decodeTableWord 5 0b01101 = some .round ∧ decodeTableWord 5 0b10000 = some .update ∧
    decodeTableWord 1 1 = some .reset := by decide +kernel

theorem witness_EdgePerformsOneOperationByPriority :
    (withEdge (inRound 5) resetPins).todo = .edge resetPins :: [] ∧ (inRound 5).regs.phase = .round ∧
    inUpdate.regs.phase = .update ∧ State.reset.regs.phase = .idle := ⟨rfl, rfl, rfl, rfl⟩

theorem witness_ScriptItemsDriveEdges :
    State.reset.regs.ready = true ∧ (inRound 0).regs.ready = false ∧
    (State.reset.setTodo [.idle 0]).todo = .idle 0 :: [] ∧ (State.reset.setTodo [.idle 1]).todo = .idle (0 + 1) :: [] ∧
    ((inRound 0).setTodo [.offer 0b10 abcBlock]).todo = .offer 0b10 abcBlock :: [] ∧
    ((inRound 0).setTodo [.wait]).todo = .wait :: [] ∧ (Expectation.ready true).holds State.reset.regs = true :=
  ⟨rfl, rfl, rfl, rfl, rfl, rfl, rfl⟩

theorem witness_PseudoInstructionsExpand :
    (letters 3).length < 2 ^ 61 ∧ (idleAbc false).regs.ready = true ∧ (idleAbc false).regs.digestValid = true ∧
    (inRound 0).regs.ready = false ∧ State.reset.regs.digestValid = false := by decide +kernel

/-- Idle with no offer, and busy with the reserved opcode offered. -/
theorem witness_CommandInputsMatterOnlyAtAccept :
    ¬ Accepts State.reset.regs (pins false 3) ∧ ¬ Accepts (inRound 1).regs (pins true 3) ∧
    ¬ Accepts (idleAbc false).regs resetPins := by
  refine ⟨fun h => ?_, fun h => ?_, fun h => ?_⟩
  · exact absurd h.2.1 (by decide)
  · exact absurd h.2.2 (by decide)
  · exact absurd h.1 (by decide)

theorem witness_BlockInputIgnoredExceptByBlock : (0b11 : BitVec 2) ≠ 0b10 ∧ (0b00 : BitVec 2) ≠ 0b10 := by decide +kernel

/-- The phase of the statements about NOP, HOLD, INIT, BLOCK, RSVD and LOAD. -/
theorem witness_idle : (idleAbc true).regs.phase = .idle ∧ State.reset.regs.phase = .idle := ⟨rfl, rfl⟩

theorem witness_BusyCommandsAreLost : (inRound 1).regs.phase ≠ .idle ∧ inUpdate.regs.phase ≠ .idle := by decide +kernel

theorem witness_RoundPerformsOneRound :
    (inRound 15).regs.phase = .round ∧ (inRound 15).regs.t.toNat ≤ 15 ∧ (inRound 16).regs.t.toNat = 16 ∧
    (inRound 63).regs.t = 63 ∧ (inRound 62).regs.t ≠ 63 := by decide +kernel

theorem witness_UpdateFoldsBack : inUpdate.regs.phase = .update := rfl

theorem witness_UnfiredRulesKeepEverything :
    inUpdate.regs.phase ≠ .idle ∧ inUpdate.regs.phase ≠ .round ∧ State.reset.regs.phase ≠ .update := by decide +kernel

theorem witness_FunctionRowsTouchNoRegister :
    (Instr.add32 1 2).format = .func ∧ exec (.add32 1 2) (inRound 3) = .next ((inRound 3).setResult (.word 3)) ∧
    inRound 3 ≠ State.reset := ⟨rfl, rfl, by decide +kernel⟩

/-- The ends of the range of amounts, for ROTR and SHR. -/
theorem witness_RotateMovesBitsRound : (1 ≤ 1 ∧ 1 ≤ 31) ∧ (1 ≤ 31 ∧ 31 ≤ 31) := by decide

/-- The ends of the ranges of word numbers, for SCHED and COMPRESS. -/
theorem witness_ScheduleFollowsRecurrence : 15 < 16 ∧ (16 < 64 ∧ 16 ≤ 16) ∧ (63 < 64 ∧ 16 ≤ 63) := by decide

/-- The four kinds of byte, in the messages of 55 and 56 letters: the last letter, the sentinel, a zero, the
trailer's first byte. -/
theorem witness_PadLaysOutMessage :
    (letters 55).length < 2 ^ 61 ∧ (pad (letters 55)).length = 1 ∧ (letters 55).length % 64 ≤ 55 ∧
    64 * 0 + 54 < (letters 55).length ∧ 64 * 0 + 55 = (letters 55).length ∧ 64 * 1 ≤ 64 * 0 + 56 + 8 ∧
    56 ≤ (letters 56).length % 64 ∧ (pad (letters 56)).length = 2 ∧
    ((letters 56).length < 64 * 0 + 57 ∧ 64 * 0 + 57 + 8 < 64 * 2) ∧
    ((letters 56).length < 64 * 1 + 55 ∧ 64 * 1 + 55 + 8 < 64 * 2) := by decide +kernel

/-- The first length that is refused, and the last that is not. -/
theorem witness_OnlyTooLongMessagesAreRefused :
    (∃ m : List Byte, 2 ^ 61 ≤ m.length) ∧ ∃ m : List Byte, m.length < 2 ^ 61 ∧ m.length = 2 ^ 61 - 1 :=
  ⟨⟨_, Nat.le_of_eq (zeros_length (2 ^ 61)).symm⟩, ⟨List.replicate (2 ^ 61 - 1) 0,
    by rw [zeros_length]; exact Nat.sub_lt (by norm_num) Nat.one_pos, zeros_length _⟩⟩

theorem witness_ComputeDigestHashesPaddedMessage : ([] : List Byte).length < 2 ^ 61 := by decide +kernel

theorem witness_BlockPortIsBigEndian : (letters 64).length = 64 ∧ 63 < 64 ∧ 15 < 16 := by decide +kernel

theorem witness_DigestPortShowsHashState : 0 < 32 ∧ 31 < 32 := by decide

theorem witness_FramerProcedureEqualsPad : (letters 128).length < 2 ^ 61 := by decide +kernel

theorem witness_ChunkedFramingEqualsWhole :
    ([letters 3, [], letters 70] : List (List Byte)).flatten.length < 2 ^ 61 := by decide +kernel

/-- The last bit count that fits, for each of the two operations. -/
theorem witness_FramerItemsDeliverBlocks :
    (⟨BitVec.ofNat 64 (2 ^ 64 - 512), []⟩ : Framer).counter.toNat + 8 * ([] ++ letters 63 : List Byte).length < 2 ^ 64 ∧
    (⟨BitVec.ofNat 64 (2 ^ 64 - 512), letters 63⟩ : Framer).counter.toNat + 8 * (letters 63).length < 2 ^ 64 := by
  decide +kernel

theorem witness_PadIsInjective : pad (letters 3) = pad [0x61, 0x61, 0x61] ∧ (letters 3).length < 2 ^ 61 := by
  decide +kernel

theorem witness_OnlyThreeEventsWriteHashState :
    (∃ t, exec .init (idleAbc false) = .next t ∧ t.regs.h ≠ (idleAbc false).regs.h) ∧
    (∃ t, exec .update inUpdate = .next t ∧ t.regs.h ≠ inUpdate.regs.h) ∧
    (∃ t, exec .reset (idleAbc false) = .next t ∧ t.regs.h ≠ (idleAbc false).regs.h) ∧
    (∃ t, step (withEdge (inRound 7) (pins true 3)) = .next t) :=
  ⟨⟨_, rfl, by decide +kernel⟩, ⟨_, rfl, by decide +kernel⟩, ⟨_, rfl, by decide +kernel⟩, ⟨_, rfl⟩⟩

theorem witness_ErrIsStickyUntilReset :
    (∃ t, exec .reset (idleAbc true) = .next t ∧ t.regs.err = false) ∧ (idleAbc true).regs.err = true ∧
    ∃ t, exec .rsvd (idleAbc false) = .next t ∧ t.regs.err = true :=
  ⟨⟨_, rfl, rfl⟩, rfl, ⟨_, rfl, rfl⟩⟩

theorem witness_SequencerAdvancesAsListed :
    Reachable State.reset ∧ State.reset.regs.phase ≠ .round ∧ (inRound 62).regs.t.toNat < 63 ∧
    (inRound 63).regs.t.toNat = 63 ∧ ¬ ((pins true 3).cmdValid = true ∧ (pins true 3).cmdOp = 0b10) ∧
    ((pins true 2).cmdValid = true ∧ (pins true 2).cmdOp = 0b10) :=
  ⟨⟨[], 0, rfl⟩, by decide +kernel, by decide +kernel, by decide +kernel, by decide +kernel, ⟨rfl, rfl⟩⟩

/-- A state in which a block is in progress meets the invariants, and goes on. -/
theorem witness_invariants :
    SequencerInv midBlock.regs ∧ BlockInProgress midBlock.regs ∧ Chained midBlock.regs ∧ FramerInv midBlock.framer ∧
    midBlock.regs.phase = .round ∧ ∃ t, step midBlock = .next t := by
  have hr : (loadRegs abcBlock State.reset.regs).phase = .round := rfl
  refine ⟨⟨fun h => absurd hr h, fun h => absurd h (by simp [midBlock])⟩, ?_, ⟨[], rfl, fun h => absurd h (by
    simp [midBlock])⟩, show ([] : List Byte).length < 64 by decide, hr, ⟨_, rfl⟩⟩
  show BlockInProgress (loadRegs abcBlock State.reset.regs)
  simp only [BlockInProgress, hr]
  refine ⟨abcBlock, fun j hj hlt => ?_, ?_⟩
  · rw [loadRegs_w]; exact agreeUpTo_load abcBlock _ j hj (by simpa using hlt)
  · rw [loadRegs_v, loadRegs_h, loadRegs_t, show (0 : BitVec 6).toNat = 0 from rfl, varsAfter_zero]

/-- Two states that differ in every data register. -/
theorem witness_SequencingIsDataIndependent :
    (inRound 5).regs.phase = ((inRound 5).setRegs { (inRound 5).regs with h := habc, v := vabc }).regs.phase ∧
    (inRound 5).regs.t = ((inRound 5).setRegs { (inRound 5).regs with h := habc, v := vabc }).regs.t ∧
    (withEdge (inRound 5) (pins true 2)).todo = .edge (pins true 2) :: [] := ⟨rfl, rfl, rfl⟩

/-- The first window, and the last. -/
theorem witness_CircularWindowHoldsSameWords :
    (15 < 64 ∧ 0 ≤ 48 ∧ 0 ≤ 15 ∧ 15 < 0 + 16) ∧ (63 < 64 ∧ 48 ≤ 48 ∧ 48 ≤ 63 ∧ 63 < 48 + 16) := by decide

/-- 65 edges that go on offering the reserved opcode. -/
theorem witness_ClockedCoreComputesCompress :
    (List.replicate 65 (pins true 3)).length = 65 ∧ (∀ p ∈ List.replicate 65 (pins true 3), p.rst = false) ∧
    (State.reset.setTodo (.edge (pins true 2) :: ((List.replicate 65 (pins true 3)).map .edge ++ []))).todo =
      .edge ⟨false, true, 0b10, abcBlock⟩ :: ((List.replicate 65 (pins true 3)).map .edge ++ []) :=
  ⟨List.length_replicate, fun p hp => by rw [List.eq_of_mem_replicate hp]; rfl, rfl⟩

theorem witness_HashScriptComputesDigest :
    ((idleAbc false).setTodo [.hash (letters 64), .digest]).todo = .hash (letters 64) :: .digest :: [] ∧
    (letters 64).length < 2 ^ 61 ∧ (idleAbc false).regs.phase = .idle ∧ Faultless (idleAbc false) :=
  ⟨rfl, by decide +kernel, rfl, rfl⟩

/-- INIT without a recorded fault, and RESET with one. -/
theorem witness_CommandSequenceFoldsItsBlocks :
    ((idleAbc false).setTodo
      [.offer 0b01 0, .idle 2, .offer 0b10 abcBlock, .offer 0b00 0, .wait, .offer 0b10 abcBlock, .wait]).todo =
      .offer 0b01 0 :: ([.idle 2, .offer 0b10 abcBlock, .offer 0b00 0, .wait, .offer 0b10 abcBlock] ++ .wait :: []) ∧
    Faultless (idleAbc false) ∧
    ((idleAbc true).setTodo [.reset, .wait]).todo = .reset :: ([] ++ .wait :: []) ∧
    (idleAbc true).regs.phase = .idle ∧
    ∀ d ∈ ([.idle 2, .offer 0b10 abcBlock, .offer 0b00 0, .wait, .offer 0b10 abcBlock] : List Drive),
      d = .wait ∨ (∃ n, d = .idle n) ∨ (∃ b, d = .offer 0b00 b) ∨ ∃ b, d = .offer 0b10 b := by
  refine ⟨rfl, rfl, rfl, rfl, fun d hd => ?_⟩
  simp only [List.mem_cons, List.not_mem_nil, or_false] at hd
  rcases hd with rfl | rfl | rfl | rfl | rfl
  · exact .inr (.inl ⟨2, rfl⟩)
  · exact .inr (.inr (.inr ⟨abcBlock, rfl⟩))
  · exact .inr (.inr (.inl ⟨0, rfl⟩))
  · exact .inl rfl
  · exact .inr (.inr (.inr ⟨abcBlock, rfl⟩))

theorem witness_HeldBlockIsAcceptedAgain :
    (State.reset.setTodo (List.replicate 132 (.edge ⟨false, true, 0b10, abcBlock⟩) ++ [])).todo =
      List.replicate 132 (.edge ⟨false, true, 0b10, abcBlock⟩) ++ [] ∧ Faultless State.reset := ⟨rfl, rfl⟩

/-- The host of "abc" at command level: INIT, its one block, and DIGEST. -/
def abcHost : State := State.reset.setTodo [.command 0b01 0, .command 0b10 abcBlock, .digest]

theorem witness_RunOverHoldsTheDigest : RunOver [0x61, 0x62, 0x63] 3 abcHost (after (run 3 abcHost)) :=
  ⟨rfl, by decide +kernel, by decide +kernel, ⟨by decide +kernel, by decide +kernel⟩, by
    rw [Faultless]; decide +kernel⟩

/-- 44 R184: with the digest sampled after the first of two blocks the run is not over, though the port is ready and
shows what was sampled; and a block accepted after a sample takes the sample back. -/
theorem test_not_over_between_blocks :
    trackRun 3 (abcHost.setTodo [.command 0b01 0, .command 0b10 (blockOfBytes (letters 64)), .digest]) none ≠
      some ⟨pad (letters 64), some (after (run 3 (abcHost.setTodo
        [.command 0b01 0, .command 0b10 (blockOfBytes (letters 64)), .digest]))).regs.digest⟩ ∧
    trackRun 4 (abcHost.setTodo [.command 0b01 0, .command 0b10 abcBlock, .digest, .command 0b10 abcBlock]) none =
      some ⟨[abcBlock, abcBlock], none⟩ := by decide +kernel

end Sys2Proof.Tests
end

section
/-! The MICRO rules outside their phase: LOAD, ROUND and UPDATE each answer with the state they were given where the
guard of 43 R153, R155, R158 does not hold (00 R13). -/

namespace Sys2Proof.Machine

theorem exec_load_of_ne_idle {s : State} (h : s.regs.phase ≠ .idle) (blk : Block) :
    exec (.load blk) s = .next s := congrArg _ (State.fire_of_ne h _)

theorem exec_round_of_ne_round {s : State} (h : s.regs.phase ≠ .round) :
    exec .round s = .next s := congrArg _ (State.fire_of_ne h _)

theorem exec_update_of_ne_update {s : State} (h : s.regs.phase ≠ .update) :
    exec .update s = .next s := congrArg _ (State.fire_of_ne h _)

/-- Settles O22: in each of the three a guard that does not hold leaves the whole state. -/
theorem unfiredRulesKeepEverything : Obligations.UnfiredRulesKeepEverything := by
  intro s blk
  exact ⟨(exec_load_of_ne_idle · blk), exec_round_of_ne_round, exec_update_of_ne_update⟩

end Sys2Proof.Machine
end

section
/-! What an edge does to the core's registers, by the phase it comes in and what is offered (60 R196, 30 R87), as
one equation for each case. -/

namespace Sys2Proof.Machine

theorem step_edge_reset {s : State} {p : Pins} {rest : List Drive} (h : s.todo = .edge p :: rest)
    (hr : p.rst = true) : step s = .next ((s.setTodo rest).setRegs (resetRegs s.regs)) := by
  rw [step_edge_of h, runWord_reset _ _ hr]; rfl

theorem step_edge_round {s : State} {p : Pins} {rest : List Drive} (h : s.todo = .edge p :: rest)
    (hr : p.rst = false) (hp : s.regs.phase = .round) :
    step s = .next ((s.setTodo rest).setRegs (roundRegs s.regs)) := by
  rw [step_edge_of h, hp, runWord_round _ hr]
  exact exec_round_of_round (s := s.setTodo rest) hp

theorem step_edge_update {s : State} {p : Pins} {rest : List Drive} (h : s.todo = .edge p :: rest)
    (hr : p.rst = false) (hp : s.regs.phase = .update) :
    step s = .next ((s.setTodo rest).setRegs (updateRegs s.regs)) := by
  rw [step_edge_of h, hp, runWord_update _ hr]
  exact exec_update_of_update (s := s.setTodo rest) hp

theorem step_edge_idle {s : State} {p : Pins} {rest : List Drive} (h : s.todo = .edge p :: rest)
    (hr : p.rst = false) (hp : s.regs.phase = .idle) :
    step s = exec (if p.cmdValid then decodeOffer p.cmdOp p.blockIn else .hold) (s.setTodo rest) := by
  rw [step_edge_of h, hp, runWord_idle _ hr]

theorem step_edge_load {s : State} {p : Pins} {rest : List Drive} (h : s.todo = .edge p :: rest)
    (hr : p.rst = false) (hp : s.regs.phase = .idle) (hv : p.cmdValid = true) (hop : p.cmdOp = 0b10) :
    step s = .next ((s.setTodo rest).setRegs (loadRegs p.blockIn s.regs)) := by
  rw [step_edge_idle h hr hp, hv, hop]
  exact exec_load_of_idle (s := s.setTodo rest) hp p.blockIn

/-- Of the offers, only opcode `0b10` is not NOP, INIT or RSVD (30 R87). -/
theorem decodeOffer_of_ne_block {op : BitVec 2} (hop : op ≠ 0b10) (blk : Block) :
    decodeOffer op blk = .nop ∨ decodeOffer op blk = .init ∨ decodeOffer op blk = .rsvd := by
  unfold decodeOffer
  split
  · exact .inl rfl
  · split
    · exact .inr (.inl rfl)
    · exact .inr (.inr (if_neg hop))

/-- An edge in IDLE that accepts no BLOCK leaves the sequencer where it is (10 R27). -/
theorem step_edge_idle_sequencer {s : State} {p : Pins} {rest : List Drive} (h : s.todo = .edge p :: rest)
    (hr : p.rst = false) (hp : s.regs.phase = .idle) (hn : ¬ (p.cmdValid = true ∧ p.cmdOp = 0b10)) :
    ∃ t, step s = .next t ∧ t.regs.phase = .idle ∧ t.regs.t = s.regs.t := by
  rw [step_edge_idle h hr hp]
  cases hv : p.cmdValid with
  | false => exact ⟨s.setTodo rest, rfl, hp, rfl⟩
  | true =>
    rw [if_pos rfl]
    rcases decodeOffer_of_ne_block (fun hop => hn ⟨hv, hop⟩) p.blockIn with e | e | e <;> rw [e]
    · exact ⟨s.setTodo rest, rfl, hp, rfl⟩
    · exact ⟨_, exec_init_of_idle (s := s.setTodo rest) hp, hp, rfl⟩
    · exact ⟨_, exec_rsvd_of_idle (s := s.setTodo rest) hp, hp, rfl⟩

/-- No edge stops the machine (60 R196). -/
theorem step_edge_goes_on {s : State} {p : Pins} {rest : List Drive} (h : s.todo = .edge p :: rest) :
    ∃ t, step s = .next t := by
  cases hr : p.rst with
  | true => exact ⟨_, step_edge_reset h hr⟩
  | false =>
    cases hp : s.regs.phase with
    | round => exact ⟨_, step_edge_round h hr hp⟩
    | update => exact ⟨_, step_edge_update h hr hp⟩
    | idle =>
      by_cases hb : p.cmdValid = true ∧ p.cmdOp = 0b10
      · exact ⟨_, step_edge_load h hr hp hb.1 hb.2⟩
      · obtain ⟨t, ht, -⟩ := step_edge_idle_sequencer h hr hp hb
        exact ⟨t, ht⟩

/-- A step goes on to one state only: what it is said to lead to is what it leads to. -/
theorem step_next_unique {s t u : State} (ht : step s = .next t) (hu : step s = .next u) : t = u :=
  Host.Outcome.next.inj (ht.symm.trans hu)

end Sys2Proof.Machine
end

section
/-! The sequencer: its invariant over everything a step can do to the registers, its value in every state that is
reachable from reset, and how `phase` and `t` advance (10 R27, R28). -/

namespace Sys2Proof.Machine

/-- The sequencer invariant over the eight ways the registers can change; ROUND and UPDATE are the two that rest on
it in the state before. -/
theorem RegsChange.sequencerInv {r r' : Regs} (hc : RegsChange r r') (hi : SequencerInv r) : SequencerInv r' := by
  obtain ⟨ht, hdv⟩ := hi
  cases hc with
  | keep => exact ⟨ht, hdv⟩
  | init hp => exact ⟨ht, fun _ => hp⟩
  | block hp blk => exact ⟨fun _ => blockRegs_t blk r, fun _ => blockRegs_phase blk r⟩
  | rsvd hp => exact ⟨ht, hdv⟩
  | load hp blk => exact ⟨fun _ => rfl, nofun⟩
  | round hp =>
    refine ⟨fun hn => ?_, fun hd => ?_⟩
    · by_cases h63 : r.t = 63
      · rw [roundRegs_t, if_pos h63]
      · rw [roundRegs_phase, if_neg h63] at hn
        exact absurd hp hn
    · have hidle := hdv hd
      rw [hp] at hidle
      cases hidle
  | update hp => exact ⟨fun _ => ht (by rw [hp]; decide), fun _ => rfl⟩
  | reset => exact ⟨fun _ => rfl, nofun⟩

/-- Settles O49: a step changes the registers by one of eight rules, and each keeps the invariant. -/
theorem sequencerInvariantKept : Obligations.SequencerInvariantKept := by
  intro s t hi hstep
  exact (step_regs hstep).sequencerInv hi

/-- What every step keeps, a run keeps. -/
theorem run_keeps {P : State → Prop} (hstep : ∀ s t, P s → step s = .next t → P t) {n : Nat} {s t : State}
    (hs : P s) (h : run n s = .next t) : P t := by
  induction n generalizing s with
  | zero => cases h; exact hs
  | succ n ih =>
    obtain ⟨u, hu, hrun⟩ := run_succ_next h
    exact ih (hstep s u hs hu) hrun

/-- What the core's registers hold after reset and every step keeps, they hold in every reachable state. -/
theorem Reachable.regs_of_kept {P : Regs → Prop} (hreset : P State.reset.regs)
    (hstep : ∀ s t : State, P s.regs → step s = .next t → P t.regs) {s : State} (hs : Reachable s) : P s.regs := by
  obtain ⟨script, n, hrun⟩ := hs
  exact run_keeps (P := (P ·.regs)) (s := State.reset.setTodo script) hstep hreset hrun

theorem sequencerInv_reset : SequencerInv State.reset.regs := ⟨fun _ => rfl, fun _ => rfl⟩

/-- ROUND counts on before round 63 (10 R27). -/
theorem roundRegs_sequencer_of_lt {r : Regs} (hp : r.phase = .round) (h : r.t.toNat < 63) :
    (roundRegs r).phase = .round ∧ (roundRegs r).t.toNat = r.t.toNat + 1 := by
  have hne : r.t ≠ 63 := by
    intro e
    rw [e] at h
    exact absurd h (by decide)
  rw [roundRegs_phase, roundRegs_t, if_neg hne, if_neg hne]
  refine ⟨hp, BitVec.toNat_add_of_lt ?_⟩
  show r.t.toNat + 1 < 2 ^ 6
  omega

/-- Round 63 ends in UPDATE with the counter back at 0 (10 R27). -/
theorem roundRegs_sequencer_of_last {r : Regs} (h : r.t.toNat = 63) :
    (roundRegs r).phase = .update ∧ (roundRegs r).t = 0 := by
  have he : r.t = 63 := BitVec.eq_of_toNat_eq h
  rw [roundRegs_phase, roundRegs_t, if_pos he, if_pos he]
  exact ⟨rfl, rfl⟩

/-- Settles O48: the first clause by the sequencer invariant along every run from reset, the others from the
registers after an edge of each kind. -/
theorem sequencerAdvancesAsListed : Obligations.SequencerAdvancesAsListed := by
  refine ⟨fun s hs => (hs.regs_of_kept sequencerInv_reset sequencerInvariantKept).1, fun s p rest h => ?_⟩
  obtain ⟨t, ht⟩ := step_edge_goes_on h
  refine ⟨t, ht, fun hr => ?_, fun hr hp hv hop => ?_, fun hr hp hn => ?_, fun hr hp hlt => ?_,
    fun hr hp hlast => ?_, fun hr hp => ?_⟩
  · cases step_next_unique ht (step_edge_reset h hr)
    exact ⟨rfl, rfl⟩
  · cases step_next_unique ht (step_edge_load h hr hp hv hop)
    exact ⟨rfl, rfl⟩
  · obtain ⟨u, hu, hseq⟩ := step_edge_idle_sequencer h hr hp hn
    cases step_next_unique ht hu
    exact hseq
  · cases step_next_unique ht (step_edge_round h hr hp)
    exact roundRegs_sequencer_of_lt hp hlt
  · cases step_next_unique ht (step_edge_round h hr hp)
    exact roundRegs_sequencer_of_last hlast
  · cases step_next_unique ht (step_edge_update h hr hp)
    exact ⟨rfl, rfl⟩

end Sys2Proof.Machine
end

section
/-! Who writes the hash state (10 R22). -/

namespace Sys2Proof.Machine

/-- A FUNC row writes no register (40, common part). -/
theorem exec_func_regs {i : Instr} {s t : State} (h : exec i s = .next t) (hf : i.format = .func) :
    t.regs = s.regs := by
  rcases (exec_next h).1 with ⟨-, -, hn⟩ | ⟨e, -⟩
  · exact absurd hf hn
  · exact e

/-- A guarded rule that changes `H` has fired. -/
theorem State.fire_regs_of_h_ne {s : State} {p : Phase} {f : Regs → Regs}
    (hne : (s.fire p f).regs.h ≠ s.regs.h) : (s.fire p f).regs = f s.regs := by
  rcases s.fire_regs p f with ⟨-, e⟩ | ⟨-, e⟩
  · exact e
  · exact absurd (congrArg Regs.h e) hne

/-- A guarded rule that writes no `H` leaves it, whether or not it fires. -/
theorem State.fire_h {s : State} {p : Phase} {f : Regs → Regs} (hf : (f s.regs).h = s.regs.h) :
    (s.fire p f).regs.h = s.regs.h := by
  rcases s.fire_regs p f with ⟨-, e⟩ | ⟨-, e⟩
  · rw [e, hf]
  · rw [e]

/-- An operation that changes `H` is RESET or INIT, UPDATE, or the whole command BLOCK (10 R22). -/
theorem exec_changes_h {i : Instr} {s t : State} (h : exec i s = .next t) (hne : t.regs.h ≠ s.regs.h) :
    ((i = .reset ∨ i = .init) ∧ t.regs.h = iv) ∨ (i = .update ∧ t.regs.h = foldBack s.regs.h s.regs.v) ∨
      ∃ blk, i = .block blk ∧ t.regs.h = compress s.regs.h blk := by
  cases i with
  | reset => cases h; exact .inl ⟨.inl rfl, rfl⟩
  | init =>
    cases h
    exact .inl ⟨.inr rfl, by rw [State.fire_regs_of_h_ne hne, initRegs_h]⟩
  | update =>
    cases h
    exact .inr (.inl ⟨rfl, by rw [State.fire_regs_of_h_ne hne, updateRegs_h]⟩)
  | block blk =>
    cases h
    exact .inr (.inr ⟨blk, rfl, by rw [State.fire_regs_of_h_ne hne, blockRegs_h]⟩)
  | nop | hold => cases h; exact absurd rfl hne
  | rsvd => cases h; exact absurd (State.fire_h (raiseIllegalCommand_h _)) hne
  | load blk => cases h; exact absurd (State.fire_h (loadRegs_h blk _)) hne
  | round => cases h; exact absurd (State.fire_h (roundRegs_h _)) hne
  | add32 | xor | and | not | rotr | shr | lsigma0 | lsigma1 | usigma0 | usigma1 | ch | maj | sched | t1 | t2
  | roundfn | compress | hashblocks | pad | computeDigest =>
    exact absurd (congrArg Regs.h (exec_func_regs h rfl)) hne

/-- Settles O46: the operations that change `H`, word by word, and ROUND, which is all that an edge in ROUND with
`rst = 0` performs. -/
theorem onlyThreeEventsWriteHashState : Obligations.OnlyThreeEventsWriteHashState := by
  refine ⟨fun i s t h hne => ?_, fun s t p rest h hr hp ht => ?_⟩
  · rcases exec_changes_h h hne with ⟨hi, e⟩ | ⟨hi, e⟩ | hblk
    · exact .inl ⟨hi, fun k => by rw [e, romIV]⟩
    · exact .inr (.inl ⟨hi, fun k => by rw [e, foldBack_word, add32]⟩)
    · exact .inr (.inr hblk)
  · cases step_next_unique ht (step_edge_round h hr hp)
    exact ⟨rfl, Regs.digest_congr rfl⟩

end Sys2Proof.Machine
end

section
/-! The 16-word circular window against the 64-word schedule (10 R32, 42 R142): the window's place `t mod 16` is
overwritten exactly when word `t + 16` is derived, and the four words that derivation reads are still in it. -/

namespace Sys2Proof.Machine

/-- The recurrence of 42 R142 as a function of the words 2, 7, 15 and 16 back. -/
def recurrence (w2 w7 w15 w16 : Word) : Word := add32 (add32 (add32 (lowerSigma1 w2) w7) (lowerSigma0 w15)) w16

/-- Word `n + 16` of a schedule, from the schedule's own words (42 R142). -/
theorem sched_getElem_recurrence (blk : Block) (n : Nat) (hn : n < 48) :
    (sched blk)[n + 16]'(by omega) = recurrence ((sched blk)[n + 14]'(by omega)) ((sched blk)[n + 9]'(by omega))
      ((sched blk)[n + 1]'(by omega)) ((sched blk)[n]'(by omega)) := by
  have ht : (BitVec.ofNat 6 (n + 16)).toNat = n + 16 := by
    rw [BitVec.toNat_ofNat]
    exact Nat.mod_eq_of_lt (by omega)
  have h := sched_getElem_high blk (BitVec.ofNat 6 (n + 16)) (by omega)
  rw [nextW_eq _ _ (by omega)] at h
  simpa only [ht, Nat.reduceSubDiff, Nat.add_sub_cancel, recurrence] using h

/-- Before any derivation the window holds the block's words (42 R141). -/
theorem windowAfter_zero_getElem (blk : Block) (j : Nat) (hj : j < 16) : (windowAfter blk 0)[j] = blockWord blk j := by
  interval_cases j <;> rfl

/-- The place of word `n + 16 - k`, for `k` from 1 to 16, as the window's 4-bit index computes it. -/
theorem windowIndex_sub (n : Nat) (k : BitVec 4) : (BitVec.ofNat 4 n - k).toNat = (n + (16 - k.toNat)) % 16 := by
  have := k.isLt
  rw [BitVec.toNat_sub, BitVec.toNat_ofNat]
  omega

/-- The derivation of word `n + 16` puts it in place `n mod 16`. -/
theorem windowAfter_succ_getElem_new (blk : Block) (n : Nat) :
    (windowAfter blk (n + 1))[n % 16]'(by omega) =
      recurrence ((windowAfter blk n)[(n + 14) % 16]'(by omega)) ((windowAfter blk n)[(n + 9) % 16]'(by omega))
        ((windowAfter blk n)[(n + 1) % 16]'(by omega)) ((windowAfter blk n)[n % 16]'(by omega)) := by
  have h2 : (BitVec.ofNat 4 n - 2).toNat = (n + 14) % 16 := windowIndex_sub n 2
  have h7 : (BitVec.ofNat 4 n - 7).toNat = (n + 9) % 16 := windowIndex_sub n 7
  have h15 : (BitVec.ofNat 4 n - 15).toNat = (n + 1) % 16 := windowIndex_sub n 15
  have h16 : (BitVec.ofNat 4 n - 16).toNat = n % 16 :=
    (windowIndex_sub n 16).trans (Nat.add_mod_right n 16)
  simp only [windowAfter, BitVec.toNat_ofNat, h2, h7, h15, h16]
  exact Vector.getElem_set_self _

/-- The derivation of word `n + 16` leaves every other place. -/
theorem windowAfter_succ_getElem_ne (blk : Block) (n j : Nat) (hj : j < 16) (hne : n % 16 ≠ j) :
    (windowAfter blk (n + 1))[j] = (windowAfter blk n)[j] := by
  simp only [windowAfter, BitVec.toNat_ofNat]
  exact Vector.getElem_set_ne _ _ hne

/-- Settles O55: by induction on the words derived. The word just derived follows from the recurrence on both sides;
every other word of the next window stood in the window before. -/
theorem circularWindowHoldsSameWords : Obligations.CircularWindowHoldsSameWords := by
  intro blk n
  induction n with
  | zero =>
    intro t ht _ _ hhi
    rw [windowAfter_zero_getElem, sched_getElem_low blk t (by omega)]
    exact congrArg (blockWord blk) (Nat.mod_eq_of_lt (by omega))
  | succ n ih =>
    intro t ht hn hlo hhi
    by_cases hnew : t = n + 16
    · subst hnew
      rw [sched_getElem_recurrence blk n (by omega), ← ih (n + 14) (by omega) (by omega) (by omega) (by omega),
        ← ih (n + 9) (by omega) (by omega) (by omega) (by omega),
        ← ih (n + 1) (by omega) (by omega) (by omega) (by omega),
        ← ih n (by omega) (by omega) (by omega) (by omega), ← windowAfter_succ_getElem_new]
      exact getElem_congr_idx (Nat.add_mod_right n 16)
    · rw [windowAfter_succ_getElem_ne blk n (t % 16) (by omega) (by omega)]
      exact ih t ht (by omega) (by omega) (by omega)

end Sys2Proof.Machine
end

section
/-! Big-endian order on the block port and on the digest port (20 R55 to R57, R59). -/

namespace Sys2Proof.Machine

/-- Appending shifts the upper vector past the lower one. -/
theorem toNat_append_eq_add {v w : Nat} (x : BitVec v) (y : BitVec w) :
    (x ++ y).toNat = x.toNat * 2 ^ w + y.toNat := by
  rw [BitVec.toNat_append, ← Nat.shiftLeft_add_eq_or_of_lt y.isLt, Nat.shiftLeft_eq]

/-- `BE32` as the weighted sum of its bytes (20 R56). -/
theorem be32_toNat (b0 b1 b2 b3 : Byte) :
    (be32 b0 b1 b2 b3).toNat = b0.toNat * 2 ^ 24 + b1.toNat * 2 ^ 16 + b2.toNat * 2 ^ 8 + b3.toNat := by
  rw [be32, toNat_append_eq_add, toNat_append_eq_add, toNat_append_eq_add]
  omega

/-- The four bytes of a word stand side by side on the port, so they append to the word (20 R56). -/
theorem blockWord_eq_be32 (b : Block) (j : Nat) (hj : j < 16) :
    blockWord b j = be32 (blockByte b (4 * j)) (blockByte b (4 * j + 1)) (blockByte b (4 * j + 2))
      (blockByte b (4 * j + 3)) := by
  have hlow : 504 - 8 * (4 * j + 3) = 480 - 32 * j := by omega
  simp only [be32, blockByte, blockWord]
  rw [BitVec.extractLsb'_append_extractLsb'_eq_extractLsb' (by omega),
    BitVec.extractLsb'_append_extractLsb'_eq_extractLsb' (by omega),
    BitVec.extractLsb'_append_extractLsb'_eq_extractLsb' (by omega), hlow]

/-- Settles O39: the bit positions of bytes and words, the four adjacent bytes of a word, and the block of 64 bytes. -/
theorem blockPortIsBigEndian : Obligations.BlockPortIsBigEndian := by
  refine ⟨fun b j k _ hk => ?_, fun b j k _ hk => ?_, blockWord_eq_be32,
    fun bs j h hj => blockByte_blockOfBytes bs h j hj, be32_toNat⟩
  · rw [blockByte_getLsbD, decide_eq_true hk, Bool.true_and]
  · rw [blockWord_getLsbD, decide_eq_true hk, Bool.true_and]

/-- A word at least 32 bits up does not see the word appended below. -/
theorem extractLsb'_append_word (n : Nat) {v : Nat} (x : BitVec v) (y : Word) :
    (x ++ y).extractLsb' (n + 32) 32 = x.extractLsb' n 32 := by
  rw [BitVec.extractLsb'_append_eq_of_le (Nat.le_add_left 32 n), Nat.add_sub_cancel]

/-- Word `k` of the digest: of the words appended, the `7 - k` below it drop off (20 R59). -/
theorem digestOf_extractWord (h : HashState) (k : Fin 8) :
    (digestOf h).extractLsb' (224 - 32 * k.val) 32 = h.word k := by
  rw [digestOf]
  fin_cases k <;> simp only [Nat.reduceMul, Nat.reduceSub, extractLsb'_append_word]
  · exact BitVec.extractLsb'_eq_self
  all_goals exact BitVec.extractLsb'_append_eq_right

/-- Byte `j` of the digest lies in its word `j div 4` (20 R59). -/
theorem digestByte_eq_byte_of_word (d : Digest) (j : Nat) (hj : j < 32) :
    digestByte d j = (d.extractLsb' (224 - 32 * (j / 4)) 32).extractLsb' (24 - 8 * (j % 4)) 8 := by
  apply BitVec.eq_of_getLsbD_eq
  intro i hi
  have hin : 24 - 8 * (j % 4) + i < 32 := by omega
  have hpos : 248 - 8 * j + i = 224 - 32 * (j / 4) + (24 - 8 * (j % 4) + i) := by omega
  simp only [digestByte, BitVec.getLsbD_extractLsb', hpos, hin, decide_true, Bool.true_and]

/-- Settles O40: the words of the port are those of `H`, and each byte of the port is a byte of its word. -/
theorem digestPortShowsHashState : Obligations.DigestPortShowsHashState := by
  intro r
  refine ⟨digestOf_extractWord r.h, fun j hj => ?_⟩
  rw [digestByte_eq_byte_of_word _ j hj]
  exact congrArg _ (digestOf_extractWord r.h ⟨j / 4, by omega⟩)

end Sys2Proof.Machine
end

section
/-! Words, their byte form and the decoder: a word survives its byte form and its 514-bit form, the encoder's word
decodes back, and a selector decodes by its phase field (30 R81, R85, R87). -/

namespace Sys2Proof

/-- The format's own bits, put in the low end of a byte, are read back from it (log 10). -/
theorem extractLsb'_setWidth_byte {k : Nat} (hk : k ≤ 8) (x : BitVec k) : (x.setWidth 8).extractLsb' 0 k = x := by
  rw [BitVec.extractLsb'_setWidth_of_le (by omega), BitVec.extractLsb'_eq_self]

/-- The format's own bits leave the bits above them in the byte clear (log 10). -/
theorem toNat_setWidth_byte_lt {k : Nat} (hk : k ≤ 8) (x : BitVec k) : (x.setWidth 8).toNat < 2 ^ k := by
  rw [BitVec.toNat_setWidth_of_le hk]
  exact x.isLt

/-- The byte form of a word is read back as that word: it has the format's length, no high bit, and the block's own
64 bytes (log 10, 20 R58). -/
theorem CodeWord.ofBytes_toBytes (cw : CodeWord) : CodeWord.ofBytes cw.format cw.toBytes = .ok cw := by
  cases cw with
  | cmd op blk =>
    have hlow : (op.setWidth 8).toNat < 4 := toNat_setWidth_byte_lt (by omega) op
    simp [format, toBytes, ofBytes, -BitVec.toNat_setWidth, hlow, extractLsb'_setWidth_byte,
      Machine.blockOfBytes_blockBytes]
  | micro sel blk =>
    have hlow : (sel.setWidth 8).toNat < 32 := toNat_setWidth_byte_lt (by omega) sel
    simp [format, toBytes, ofBytes, -BitVec.toNat_setWidth, hlow, extractLsb'_setWidth_byte,
      Machine.blockOfBytes_blockBytes]
  | pin rst =>
    have hlow : (rst.setWidth 8).toNat ≤ 1 := Nat.le_of_lt_succ (toNat_setWidth_byte_lt (by omega) rst)
    simp [format, toBytes, ofBytes, -BitVec.toNat_setWidth, hlow, extractLsb'_setWidth_byte]

/-- The bytes of a word decode as the word does. -/
theorem decodeBytes_toBytes (cw : CodeWord) : decodeBytes cw.format cw.toBytes = decode cw := by
  rw [decodeBytes, CodeWord.ofBytes_toBytes]
  rfl

/-- The 514-bit command word taken apart gives the opcode and the block it was put together from (30 R81). -/
theorem CodeWord.ofCmdWord_cmdWord (op : BitVec 2) (blk : Block) :
    CodeWord.ofCmdWord (cmdWord op blk) = .cmd op blk := by
  rw [CodeWord.ofCmdWord, cmdWord, BitVec.extractLsb'_append_eq_left, BitVec.extractLsb'_append_eq_right]

/-- The 514-bit command word is all opcode and block (30 R81). -/
theorem cmdWord_extractLsb' (w : BitVec 514) : cmdWord (w.extractLsb' 512 2) (w.extractLsb' 0 512) = w :=
  (BitVec.extractLsb'_append_extractLsb'_eq_extractLsb' rfl).trans BitVec.extractLsb'_eq_self

/-- The per-instruction lemmas on formats, gathered. -/
theorem encodedFormat (i : Instr) : Laws.EncodedFormat.Statement i := by
  cases i <;> rfl

/-- Exactly the FUNC rows have no word (30 R85). -/
theorem encode_eq_none_iff (i : Instr) : encode i = none ↔ i.format = .func := by
  rw [← Option.map_eq_none_iff (f := CodeWord.format), encodedFormat i]
  split <;> simp [*]

/-- A word of an instruction has the format of the instruction's row (30 R85). -/
theorem format_of_encode {i : Instr} {cw : CodeWord} (h : encode i = some cw) : cw.format = i.format := by
  have hf := encodedFormat i
  rw [Laws.EncodedFormat.Statement, h, Option.map_some] at hf
  split at hf
  · cases hf
  · exact Option.some.inj hf

/-- The word of an instruction decodes to that instruction (30 R81, R85). -/
theorem decode_of_encode {i : Instr} {cw : CodeWord} (h : encode i = some cw) : decode cw = .ok i := by
  cases i with
  | nop | init | block | rsvd | hold | load | round | update | reset => cases h; rfl
  | add32 | xor | and | not | rotr | shr | lsigma0 | lsigma1 | usigma0 | usigma1 | ch | maj | sched | t1 | t2
  | roundfn | compress | hashblocks | pad | computeDigest => cases h

/-- Settles O1: the encoder's words decode back, row by row; the byte form and the 514-bit form lose nothing, for any
word. -/
theorem encodedInstructionDecodesBack : Obligations.EncodedInstructionDecodesBack := by
  refine ⟨fun i cw h => ?_, encode_eq_none_iff, CodeWord.ofBytes_toBytes, CodeWord.ofCmdWord_cmdWord,
    cmdWord_extractLsb'⟩
  have hf := format_of_encode h
  have hd := decode_of_encode h
  exact ⟨hf, hd, by rw [← hf, decodeBytes_toBytes, hd]⟩

/-- Settles O2: the opcode is read from its two bits and the block from the rest. -/
theorem commandDecoderReadsOpOnly : Obligations.CommandDecoderReadsOpOnly := by
  intro blk
  simp only [CodeWord.ofCmdWord_cmdWord]
  exact ⟨rfl, rfl, rfl, rfl⟩

/-- The operation that the phase and the command inputs select at an edge with `rst = 0` (30 R87). -/
def selectedOperation (ph : Phase) (valid : Bool) (op : BitVec 2) (blk : Block) : Instr :=
  match ph with
  | .idle => if valid then decodeOffer op blk else .hold
  | .round => .round
  | .update => .update

/-- What an edge with `rst = 0` decodes to is the selected operation. -/
theorem decode_edgeWord_selected (ph : Phase) {p : Machine.Pins} (h : p.rst = false) :
    decode (Machine.edgeWord ph p) = .ok (selectedOperation ph p.cmdValid p.cmdOp p.blockIn) := by
  rw [Machine.decode_edgeWord ph h]
  cases ph <;> rfl

/-- Settles O3: `rst = 1` selects RESET; otherwise the selected operation, in each phase and for each offer. -/
theorem edgeSelectsByPhaseAndOffer : Obligations.EdgeSelectsByPhaseAndOffer := by
  intro ph p
  refine ⟨Machine.decode_edgeWord_reset ph, fun hr hp => ?_, fun hr hp => ?_, fun hr hp hv => ?_,
    fun hr hp hv => ⟨fun hop => ?_, fun hop => ?_, fun hop => ?_, fun hop => ?_⟩⟩
  · rw [decode_edgeWord_selected ph hr, hp]; rfl
  · rw [decode_edgeWord_selected ph hr, hp]; rfl
  · rw [decode_edgeWord_selected ph hr, hp, hv]; rfl
  all_goals rw [decode_edgeWord_selected ph hr, hp, hv, hop]; rfl

/-- A selector that names a phase decodes to what an edge in that phase selects (30 R87). -/
theorem decode_micro_of_phase {sel : BitVec 5} {ph : Phase} (h : sel.extractLsb' 3 2 = ph.code) (blk : Block) :
    decode (.micro sel blk) = .ok (selectedOperation ph (sel.getLsbD 2) (sel.extractLsb' 0 2) blk) := by
  rw [decode, decodeMicro, h, Phase.ofCode_code]
  cases ph <;> rfl

/-- Two masked bits of a selector are its phase field (30 R85). -/
theorem selector_phase_of_mask (c : BitVec 2) (sel : BitVec 5) :
    sel &&& 0b11000 = c ++ 0b000#3 → sel.extractLsb' 3 2 = c := by
  revert c sel
  decide

/-- The mask of HOLD asks for IDLE and for no command (30 R85). -/
theorem selector_fields_of_hold_mask (sel : BitVec 5) :
    sel &&& 0b11100 = 0b00000 → sel.extractLsb' 3 2 = Phase.idle.code ∧ sel.getLsbD 2 = false := by
  revert sel
  decide

/-- Settles O4: a row's mask fixes the phase field, and in IDLE the offer; the one-edge commands and LOAD are single
selectors. -/
theorem selectorDecodesToItsTableRow : Obligations.SelectorDecodesToItsTableRow := by
  intro sel blk
  refine ⟨fun h => ?_, fun h => ?_, fun h => ?_, fun h => ?_, fun h => ?_, fun h => ?_, fun h => ?_, fun h => ?_⟩
  · obtain ⟨hp, hv⟩ := selector_fields_of_hold_mask sel h
    rw [decode_micro_of_phase hp, hv]
    rfl
  · rw [h]; rfl
  · exact decode_micro_of_phase (ph := .round) (selector_phase_of_mask _ sel h) blk
  · exact decode_micro_of_phase (ph := .update) (selector_phase_of_mask _ sel h) blk
  · rw [h]; rfl
  · rw [h]; rfl
  · rw [h]; rfl
  · rw [decode, decodeMicro, selector_phase_of_mask 0b11 sel h]
    rfl

/-- Settles O5: five closed words, each evaluated by the decoder. -/
theorem writtenOutWordsDecode : Obligations.WrittenOutWordsDecode :=
  ⟨by decide +kernel, by decide +kernel, rfl, rfl, rfl⟩

end Sys2Proof
end

section
/-! An instruction placed by its table word (30 R85, log 11): the word decodes to it, and the phase it is placed in is
the one it fires in. -/

namespace Sys2Proof.Machine

/-- A word that decodes runs its instruction. -/
theorem runWord_of_decode {cw : CodeWord} {i : Instr} (hd : decode cw = .ok i) (s : State) :
    runWord cw s = exec i s := by
  rw [runWord, hd]

/-- The phase an instruction is placed in, in a core that was in phase `ph` (log 11). -/
def placedPhase (i : Instr) (ph : Phase) : Phase :=
  if i = .round then .round else if i = .update then .update else if i = .reset then ph else .idle

/-- Every command is placed in IDLE. -/
theorem placedPhase_decodeCmd (op : BitVec 2) (blk : Block) (ph : Phase) :
    placedPhase (decodeCmd op blk) ph = .idle := by
  unfold decodeCmd
  split_ifs <;> rfl

/-- Every one-edge command and LOAD are placed in IDLE. -/
theorem placedPhase_decodeOffer (op : BitVec 2) (blk : Block) (ph : Phase) :
    placedPhase (decodeOffer op blk) ph = .idle := by
  unfold decodeOffer
  split_ifs <;> rfl

/-- An instruction that a selector names is placed in the selector's phase. -/
theorem placedPhase_selectedOperation (ph : Phase) (valid : Bool) (op : BitVec 2) (blk : Block) (ph' : Phase) :
    placedPhase (selectedOperation ph valid op blk) ph' = ph := by
  cases ph with
  | round => rfl
  | update => rfl
  | idle =>
    cases valid with
    | false => rfl
    | true => exact placedPhase_decodeOffer op blk ph'

/-- A command word placed is the whole command, in IDLE (log 1, log 11). -/
theorem step_placeWord_cmd (s : State) (op : BitVec 2) (blk : Block) :
    step (placeWord s (.cmd op blk)) = exec (decodeCmd op blk) (s.setRegs { s.regs with phase := .idle }) :=
  step_of_word (fetch_command_ready rfl rfl) rfl

/-- A selector placed is one edge with that selector, in its phase (log 11). -/
theorem step_placeWord_micro (s : State) {sel : BitVec 5} {ph : Phase}
    (h : Phase.ofCode (sel.extractLsb' 3 2) = some ph) (blk : Block) :
    step (placeWord s (.micro sel blk)) =
      runWord (.micro sel blk) (s.setRegs { s.regs with phase := ph }) := by
  have hword : edgeWord ph (pinsOf sel blk) = .micro sel blk :=
    congrArg (CodeWord.micro · blk) (selector_pinsOf h blk)
  rw [placeWord, h, ← hword]
  exact step_edge _ _ _

/-- The pin placed is one edge with `rst = 1`, in the state's own phase (log 11). -/
theorem step_placeWord_pin (s : State) : step (placeWord s (.pin 1)) = exec .reset s :=
  (step_edge s resetPins s.todo).trans (runWord_reset s.regs.phase s rfl)

/-- A word placed runs what it decodes to, in the phase that fires in. -/
theorem step_placeWord (s : State) {cw : CodeWord} {i : Instr} (hd : decode cw = .ok i) :
    step (placeWord s cw) = exec i (s.setRegs { s.regs with phase := placedPhase i s.regs.phase }) := by
  cases cw with
  | cmd op blk =>
    cases hd
    rw [placedPhase_decodeCmd]
    exact step_placeWord_cmd s op blk
  | micro sel blk =>
    cases hph : Phase.ofCode (sel.extractLsb' 3 2) with
    | none =>
      rw [decode, decodeMicro, hph] at hd
      cases hd
    | some ph =>
      have hsel := decode_micro_of_phase (Phase.code_of_ofCode hph).symm blk
      cases hd.symm.trans hsel
      rw [placedPhase_selectedOperation, step_placeWord_micro s hph, runWord_of_decode hsel]
  | pin rst =>
    rw [decode] at hd
    split at hd
    · next hrst =>
      subst hrst
      cases hd
      exact step_placeWord_pin s
    · cases hd

/-- A table word that decodes names a word that decodes. -/
theorem decodeTableWord_eq_some {nbits w : Nat} {i : Instr} (h : decodeTableWord nbits w = some i) :
    ∃ cw, tableCodeWord nbits w = .ok cw ∧ decode cw = .ok i := by
  rw [decodeTableWord] at h
  cases hcw : tableCodeWord nbits w with
  | error r => rw [hcw] at h; cases h
  | ok cw =>
    rw [hcw] at h
    change (decode cw).toOption = some i at h
    cases hd : decode cw with
    | error r => rw [hd] at h; cases h
    | ok j => rw [hd] at h; cases h; exact ⟨cw, rfl, hd⟩

/-- Settles O7: the table word stands for a word that decodes to the instruction, and a word placed runs what it
decodes to. -/
theorem placedWordRunsNext : Obligations.PlacedWordRunsNext := by
  intro s nbits w i h
  obtain ⟨cw, hcw, hd⟩ := decodeTableWord_eq_some h
  rw [State.withFetchWord, hcw]
  exact step_placeWord s hd

end Sys2Proof.Machine
end

section
/-! The command inputs: what an edge that accepts nothing performs is fixed by `rst` and the phase (30 R82, R87), and
the block input matters to BLOCK only (30 R86). -/

namespace Sys2Proof.Machine

/-- The operation of an edge that accepts nothing (30 R87). -/
def unofferedOperation (rst : Bool) (ph : Phase) : Instr :=
  if rst then .reset else selectedOperation ph false 0 0

theorem not_accepts_of_rst {p : Pins} (h : p.rst = true) (r : Regs) : ¬ Accepts r p :=
  fun ⟨hr, _, _⟩ => Bool.false_ne_true (hr.symm.trans h)

theorem not_accepts_of_no_command {p : Pins} (h : p.cmdValid = false) (r : Regs) : ¬ Accepts r p :=
  fun ⟨_, hv, _⟩ => Bool.false_ne_true (h.symm.trans hv)

theorem not_accepts_of_busy {r : Regs} (h : r.phase ≠ .idle) (p : Pins) : ¬ Accepts r p :=
  fun ⟨_, _, hready⟩ => h (r.ready_eq_true.mp hready)

/-- An edge that accepts nothing performs the operation that `rst` and the phase name, whatever is offered (30 R82). -/
theorem decode_edgeWord_of_not_accepts {r : Regs} {p : Pins} (h : ¬ Accepts r p) :
    decode (edgeWord r.phase p) = .ok (unofferedOperation p.rst r.phase) := by
  cases hr : p.rst with
  | true => exact decode_edgeWord_reset r.phase hr
  | false =>
    rw [decode_edgeWord_selected r.phase hr]
    cases hp : r.phase with
    | round => rfl
    | update => rfl
    | idle =>
      have hv : p.cmdValid = false := by
        rw [← Bool.not_eq_true]
        exact fun hv => h ⟨hr, hv, r.ready_eq_true.mpr hp⟩
      rw [hv]
      rfl

/-- The step over an edge that accepts nothing. -/
theorem step_edge_of_not_accepts {s : State} {p : Pins} (h : ¬ Accepts s.regs p) (rest : List Drive) :
    step (s.setTodo (.edge p :: rest)) = exec (unofferedOperation p.rst s.regs.phase) (s.setTodo rest) := by
  rw [step_edge, runWord_of_decode (decode_edgeWord_of_not_accepts h)]

/-- At edges that accept nothing only `rst` is looked at (30 R82). -/
theorem step_edge_congr_of_not_accepts {s : State} {p q : Pins} (hr : p.rst = q.rst) (hp : ¬ Accepts s.regs p)
    (hq : ¬ Accepts s.regs q) {rest : List Drive} :
    step (s.setTodo (.edge p :: rest)) = step (s.setTodo (.edge q :: rest)) := by
  rw [step_edge_of_not_accepts hp, step_edge_of_not_accepts hq, hr]

/-- The operation of an edge that accepts nothing goes on, queues nothing and raises no fault (30 R82, 60 R191). -/
theorem exec_unofferedOperation (rst : Bool) (s : State) :
    ∃ t, exec (unofferedOperation rst s.regs.phase) s = .next t ∧ t.todo = s.todo ∧
      (t.regs.err = true → s.regs.err = true) := by
  cases rst with
  | true => exact ⟨_, rfl, rfl, nofun⟩
  | false =>
    cases hp : s.regs.phase with
    | idle => exact ⟨s, rfl, rfl, id⟩
    | round => exact ⟨_, exec_round_of_round hp, rfl, id⟩
    | update => exact ⟨_, exec_update_of_update hp, rfl, id⟩

/-- Settles O12: an edge that accepts nothing performs an operation that the command inputs do not enter. -/
theorem commandInputsMatterOnlyAtAccept : Obligations.CommandInputsMatterOnlyAtAccept := by
  intro s p q rest hr hp hq
  refine ⟨step_edge_congr_of_not_accepts hr hp hq, ?_⟩
  rw [step_edge_of_not_accepts hp]
  exact exec_unofferedOperation p.rst (s.setTodo rest)

/-- Of the offers only BLOCK has the block input for an operand (30 R86). -/
theorem decodeOffer_congr_block {op : BitVec 2} (hop : op ≠ 0b10) (b b' : Block) :
    decodeOffer op b = decodeOffer op b' := by
  have hne : op ≠ 0b10#2 := hop
  rw [decodeOffer, decodeOffer, if_neg hne, if_neg hne]

/-- Settles O13: in IDLE the offer is decoded without its block; elsewhere the edge accepts nothing. -/
theorem blockInputIgnoredExceptByBlock : Obligations.BlockInputIgnoredExceptByBlock := by
  intro s op b b' rest hop
  by_cases hp : s.regs.phase = .idle
  · rw [step_edge, step_edge, hp, runWord_idle _ rfl, runWord_idle _ rfl]
    exact congrArg (exec · _) (decodeOffer_congr_block hop b b')
  · exact step_edge_congr_of_not_accepts (p := ⟨false, true, op, b⟩) (q := ⟨false, true, op, b'⟩) rfl
      (not_accepts_of_busy hp _) (not_accepts_of_busy hp _)

end Sys2Proof.Machine
end

section
/-! The script items and the pseudo-instructions (30 R89, R90). -/

namespace Sys2Proof.Machine

/-- An item that waits is an idle edge, whatever is on the other inputs (30 R89). -/
theorem step_of_idle_edge {s : State} {rest : List Drive} (hf : fetch s = fetchEdge s idlePins rest) (op : BitVec 2)
    (blk : Block) : step s = step (s.setTodo (.edge ⟨false, false, op, blk⟩ :: rest)) := by
  rw [step_of_fetchEdge hf]
  exact step_edge_congr_of_not_accepts (p := idlePins) (q := ⟨false, false, op, blk⟩) rfl
    (not_accepts_of_no_command rfl _) (not_accepts_of_no_command rfl _)

/-- RESET is an edge with `rst = 1`, whatever is on the other inputs (30 R89). -/
theorem step_of_reset_edge {s : State} {rest : List Drive} (hf : fetch s = fetchEdge s resetPins rest) (v : Bool)
    (op : BitVec 2) (blk : Block) : step s = step (s.setTodo (.edge ⟨true, v, op, blk⟩ :: rest)) := by
  rw [step_of_fetchEdge hf]
  exact step_edge_congr_of_not_accepts (p := resetPins) (q := ⟨true, v, op, blk⟩) rfl
    (not_accepts_of_rst rfl _) (not_accepts_of_rst rfl _)

/-- Settles O9: what each item fetches is an edge with the inputs the notation fixes, or no edge; the inputs it leaves
open do not matter, as the edge accepts nothing. -/
theorem scriptItemsDriveEdges : Obligations.ScriptItemsDriveEdges := by
  intro s rest
  refine ⟨fun h => step_of_reset_edge (fetch_reset h),
    fun op blk h => ⟨fun hr => step_of_fetchEdge (fetch_offer_ready h hr),
      fun hr => step_of_idle_edge (fetch_offer_busy h hr)⟩,
    fun h => step_of_host (fetch_idle_zero h), fun n h => step_of_idle_edge (fetch_idle_succ h),
    fun h => ⟨fun hr => step_of_host (fetch_wait_ready h hr), fun hr => step_of_idle_edge (fetch_wait_busy h hr)⟩,
    fun e h he => step_of_host ?_⟩
  rw [fetch_expect h, he]
  rfl

/-- HASH of a message that may be padded puts its expansion in its place (30 R90). -/
theorem step_hash {s : State} {m : List Byte} {rest : List Drive} (h : s.todo = .hash m :: rest)
    (hm : m.length < Config.maxMessageBytes) : step s = .next (s.setTodo (hashScript m ++ rest)) :=
  step_of_host ((fetch_hash h).trans (if_pos hm))

/-- DIGEST at a port that may be sampled samples it (30 R90). -/
theorem step_digest_sample {s : State} {rest : List Drive} (h : s.todo = .digest :: rest) (hd : DigestReady s) :
    step s = .next ((s.setTodo rest).setSampled s.regs.digest) :=
  step_of_host ((fetch_digest h).trans (if_pos (by rw [hd.1, hd.2]; rfl)))

/-- DIGEST waits with an idle edge where the port may not be sampled (log 17). -/
theorem step_digest_wait {s : State} {rest : List Drive} (h : s.todo = .digest :: rest)
    (hn : s.regs.ready = false ∨ s.regs.digestValid = false) :
    step s = step (s.setTodo (.edge idlePins :: s.todo)) := by
  refine step_of_fetchEdge ((fetch_digest h).trans (if_neg ?_))
  simpa only [Bool.and_eq_true, not_and_or, Bool.not_eq_true] using hn

/-- Settles O10: HASH and DIGEST as fetched, in each case. -/
theorem pseudoInstructionsExpand : Obligations.PseudoInstructionsExpand := by
  refine fun s rest => ⟨fun m h hm => ?_, fun h => ⟨fun hr hv => ?_, step_digest_wait h⟩⟩
  · rw [step_hash h hm, hashScript, List.cons_append, List.append_assoc]
    rfl
  · exact ⟨_, step_digest_sample h ⟨hr, hv⟩, rfl, rfl, rfl, rfl, rfl⟩

end Sys2Proof.Machine
end

section
/-! The FUNC rows deliver a value of their operands (40, common part). -/

namespace Sys2Proof.Machine

/-- A FUNC row that goes on from one state delivers one value from every state, and that value is something. -/
theorem exec_func_delivers {i : Instr} {s t : State} (hf : i.format = .func) (h : exec i s = .next t) :
    ∃ v, v ≠ .none ∧ ∀ s', exec i s' = deliver v s' := by
  cases i with
  | nop | init | block | rsvd | hold | load | round | update | reset => cases hf
  | pad m | computeDigest m =>
    refine ⟨_, ?_, fun _ => if_pos (refuse_long_next h).1⟩
    nofun
  | add32 | xor | and | not | rotr | shr | lsigma0 | lsigma1 | usigma0 | usigma1 | ch | maj | sched | t1 | t2
  | roundfn | compress | hashblocks =>
    refine ⟨_, ?_, fun _ => rfl⟩
    nofun

/-- Settles O24: the row delivers its value, which only the result latch of the state takes. -/
theorem functionRowsTouchNoRegister : Obligations.FunctionRowsTouchNoRegister := by
  intro i s t hf h
  obtain ⟨v, hv, hexec⟩ := exec_func_delivers hf h
  rw [hexec s] at h
  cases deliver_next h
  exact ⟨rfl, rfl, rfl, rfl, hv, hexec⟩

end Sys2Proof.Machine
end

section
/-! The word operations bit by bit (40 R100 to R110). A bit of a complement, a rotation or a vote is stated for the 32
places of a word, the places the rules number. -/

namespace Sys2Proof.Machine

@[simp] theorem xor32_getLsbD (x y : Word) (i : Nat) : (xor32 x y).getLsbD i = (x.getLsbD i ^^ y.getLsbD i) :=
  BitVec.getLsbD_xor

@[simp] theorem and32_getLsbD (x y : Word) (i : Nat) : (and32 x y).getLsbD i = (x.getLsbD i && y.getLsbD i) :=
  BitVec.getLsbD_and

theorem not32_getLsbD (x : Word) {i : Nat} (hi : i < 32) : (not32 x).getLsbD i = !x.getLsbD i := by
  rw [not32, BitVec.getLsbD_not, decide_eq_true hi, Bool.true_and]

/-- A logical shift reads the bit `n` places up (40 R103). -/
@[simp] theorem shr_getLsbD (x : Word) (n i : Nat) : (shr x n).getLsbD i = x.getLsbD (i + n) := by
  rw [shr, BitVec.getLsbD_ushiftRight, Nat.add_comm]

/-- A rotation reads the bit `n` places up, counted round: below the top from the part shifted down, past it from the
part shifted up (40 R102; any amount, log 12). -/
theorem rotr_getLsbD (x : Word) (n : Nat) {i : Nat} (hi : i < 32) :
    (rotr x n).getLsbD i = x.getLsbD ((i + n) % 32) := by
  have hn : n % 32 < 32 := Nat.mod_lt n (by decide)
  rw [rotr, xor32_getLsbD, shr_getLsbD, BitVec.getLsbD_shiftLeft]
  by_cases hin : i + n % 32 < 32
  · have hidx : (i + n) % 32 = i + n % 32 := by omega
    have hup : i < 32 - n % 32 := by omega
    simp [hidx, hup]
  · have hidx : (i + n) % 32 = i - (32 - n % 32) := by omega
    have hdown : x.getLsbD (i + n % 32) = false := BitVec.getLsbD_of_ge _ _ (by omega)
    have hup : ¬ i < 32 - n % 32 := by omega
    simp [hidx, hdown, hup, hi]

/-- Below 32 places the rotation is the two shifted parts as 40 R102 writes them. -/
theorem rotr_eq_shifted_parts (x : Word) {n : Nat} (hn : n < 32) :
    rotr x n = (x >>> n) ^^^ BitVec.ofNat 32 (x.toNat * 2 ^ (32 - n)) := by
  rw [rotr, Nat.mod_eq_of_lt hn, xor32, shr]
  congr 1
  apply BitVec.eq_of_toNat_eq
  rw [BitVec.toNat_shiftLeft, BitVec.toNat_ofNat, Nat.shiftLeft_eq]

/-- CH takes `y` where `x` is set and `z` where it is not (40 R110). -/
theorem choice_getLsbD (x y z : Word) {i : Nat} (hi : i < 32) :
    (choice x y z).getLsbD i = if x.getLsbD i then y.getLsbD i else z.getLsbD i := by
  rw [choice, xor32_getLsbD, and32_getLsbD, and32_getLsbD, not32_getLsbD x hi]
  cases x.getLsbD i <;> simp

/-- MAJ is set where two of the three operands are (40 R110). -/
theorem majority_getLsbD (x y z : Word) (i : Nat) :
    (majority x y z).getLsbD i =
      decide (2 ≤ (x.getLsbD i).toNat + (y.getLsbD i).toNat + (z.getLsbD i).toNat) := by
  simp only [majority, xor32_getLsbD, and32_getLsbD]
  generalize x.getLsbD i = a, y.getLsbD i = b, z.getLsbD i = c
  revert a b c
  decide

/-- CH without a complement (40 R108). -/
theorem choice_eq_xor (x y z : Word) : choice x y z = z ^^^ (x &&& (y ^^^ z)) := by
  apply BitVec.eq_of_getLsbD_eq
  intro i hi
  rw [choice_getLsbD x y z hi, BitVec.getLsbD_xor, BitVec.getLsbD_and, BitVec.getLsbD_xor]
  generalize x.getLsbD i = a, y.getLsbD i = b, z.getLsbD i = c
  revert a b c
  decide

/-- MAJ with `or` for `xor` (40 R109). -/
theorem majority_eq_or (x y z : Word) : majority x y z = (x &&& y) ||| (x &&& z) ||| (y &&& z) := by
  apply BitVec.eq_of_getLsbD_eq
  intro i _
  rw [majority_getLsbD, BitVec.getLsbD_or, BitVec.getLsbD_or, BitVec.getLsbD_and, BitVec.getLsbD_and,
    BitVec.getLsbD_and]
  generalize x.getLsbD i = a, y.getLsbD i = b, z.getLsbD i = c
  revert a b c
  decide

/-- Settles O27: the value delivered is `rotr x n`, for any amount. -/
theorem rotateMovesBitsRound : Obligations.RotateMovesBitsRound := by
  intro s x n
  exact ⟨rotr x n, rfl, fun _ hn => ⟨fun _ hi => rotr_getLsbD x n hi, rotr_eq_shifted_parts x (by omega)⟩⟩

/-- Settles O28: the value delivered is `shr x n`; a place past the top reads a zero. -/
theorem shiftIsLogical : Obligations.ShiftIsLogical := by
  intro s x n
  refine ⟨shr x n, rfl, fun _ _ => ⟨?_, fun i _ => ?_⟩⟩
  · rw [shr, BitVec.toNat_ushiftRight, Nat.shiftRight_eq_div_pow]
  · rw [shr_getLsbD]
    split
    · rfl
    · exact BitVec.getLsbD_of_ge _ _ (by omega)

/-- Settles O29: each of the four is a `xor` of rotations and shifts, read bit by bit. -/
theorem sigmaFunctionsPerBit : Obligations.SigmaFunctionsPerBit := by
  intro s x
  refine ⟨lowerSigma0 x, lowerSigma1 x, upperSigma0 x, upperSigma1 x, rfl, rfl, rfl, rfl, fun i hi => ?_⟩
  simp only [lowerSigma0, lowerSigma1, upperSigma0, upperSigma1, xor32_getLsbD, shr_getLsbD, rotr_getLsbD x _ hi,
    and_self]

/-- Settles O30: the truth tables of `choice` and `majority`, and their other forms. -/
theorem choiceAndMajorityPerBit : Obligations.ChoiceAndMajorityPerBit := by
  intro s x y z
  exact ⟨choice x y z, majority x y z, rfl, rfl, choice_eq_xor x y z, majority_eq_or x y z,
    fun i hi => ⟨choice_getLsbD x y z hi, majority_getLsbD x y z i⟩⟩

/-- Settles O25: the model's sum is the sum of bit vectors. -/
theorem additionIsModulo : Obligations.AdditionIsModulo :=
  ⟨fun _ x y => ⟨add32 x y, rfl, BitVec.toNat_add x y⟩, BitVec.add_assoc, BitVec.add_comm⟩

/-- Settles O26: the complement is over 32 bits, where all ones is `0xffffffff`. -/
theorem bitwiseOperationsActPerBit : Obligations.BitwiseOperationsActPerBit := by
  intro s x y
  refine ⟨xor32 x y, and32 x y, not32 x, rfl, rfl, rfl, BitVec.toNat_not, (BitVec.allOnes_xor).symm, fun i hi => ?_⟩
  exact ⟨xor32_getLsbD x y i, and32_getLsbD x y i, not32_getLsbD x hi⟩

end Sys2Proof.Machine
end

section
/-! The sequencer as a function of the control inputs and of its own registers: no data register and no block enters
it (40 R112, 10 R35). -/

namespace Sys2Proof.Machine

/-- Phase and round after an edge, from `rst`, `cmd_valid`, `cmd_op` and the phase and round before it (10 R27). -/
def nextSequencer (rst valid : Bool) (op : BitVec 2) (ph : Phase) (t : BitVec 6) : Phase × BitVec 6 :=
  if rst then (.idle, 0)
  else match ph with
    | .idle => if valid = true ∧ op = 0b10 then (.round, 0) else (.idle, t)
    | .round => if t = 63 then (.update, 0) else (.round, t + 1)
    | .update => (.idle, t)

/-- Every edge moves the sequencer by that function. -/
theorem step_edge_nextSequencer {s : State} {p : Pins} {rest : List Drive} (h : s.todo = .edge p :: rest) :
    ∃ t, step s = .next t ∧
      (t.regs.phase, t.regs.t) = nextSequencer p.rst p.cmdValid p.cmdOp s.regs.phase s.regs.t := by
  cases hr : p.rst with
  | true => exact ⟨_, step_edge_reset h hr, rfl⟩
  | false =>
    cases hp : s.regs.phase with
    | round =>
      refine ⟨_, step_edge_round h hr hp, ?_⟩
      simp only [State.setRegs_regs, roundRegs_phase, roundRegs_t, hp, nextSequencer, Bool.false_eq_true, if_false]
      split <;> rfl
    | update => exact ⟨_, step_edge_update h hr hp, rfl⟩
    | idle =>
      by_cases hb : p.cmdValid = true ∧ p.cmdOp = 0b10
      · exact ⟨_, step_edge_load h hr hp hb.1 hb.2, (if_pos hb).symm⟩
      · obtain ⟨t, ht, hphase, hround⟩ := step_edge_idle_sequencer h hr hp hb
        refine ⟨t, ht, ?_⟩
        rw [hphase, hround]
        exact (if_neg hb).symm

/-- Settles O54: both edges apply one function to equal arguments; `ready` is read off the phase. -/
theorem sequencingIsDataIndependent : Obligations.SequencingIsDataIndependent := by
  intro s s' p p' rest rest' hphase hround hrst hvalid hop h h'
  obtain ⟨t, ht, hnext⟩ := step_edge_nextSequencer h
  obtain ⟨t', ht', hnext'⟩ := step_edge_nextSequencer h'
  rw [hphase, hround, hrst, hvalid, hop, ← hnext', Prod.mk.injEq] at hnext
  obtain ⟨hph, hrd⟩ := hnext
  exact ⟨t, t', ht, ht', hph, hrd, by rw [Regs.ready, Regs.ready, hph]⟩

end Sys2Proof.Machine
end

section
/-! The bytes of a string cut into blocks, and the bytes of a padded message (41 R121, R122, R125). -/

namespace Sys2Proof.Machine

/-- Byte `j` of block `i` of a byte string is its byte `64 i + j`. -/
theorem blockByte_cutBlocks {n : Nat} {bs : List Byte} (h : 64 * n ≤ bs.length) {i j : Nat}
    (hi : i < (cutBlocks n bs).length) (hj : j < 64) :
    blockByte (cutBlocks n bs)[i] j =
      bs[64 * i + j]'(by rw [cutBlocks_length] at hi; omega) := by
  induction n generalizing bs i with
  | zero => exact absurd hi (Nat.not_lt_zero i)
  | succ n ih =>
    cases i with
    | zero =>
      have hlen : (bs.take 64).length = 64 := by rw [List.length_take]; omega
      simp only [cutBlocks, List.getElem_cons_zero, blockByte_blockOfBytes _ hlen j hj, List.getElem_take, Nat.mul_zero,
        Nat.zero_add]
    | succ i =>
      have hdrop : 64 * n ≤ (bs.drop 64).length := by rw [List.length_drop]; omega
      have hidx : 64 + (64 * i + j) = 64 * (i + 1) + j := by omega
      simp only [cutBlocks, List.length_cons, Nat.add_lt_add_iff_right] at hi
      simp only [cutBlocks, List.getElem_cons_succ, ih hdrop hi, List.getElem_drop, hidx]

/-- The bytes of the blocks cut off a byte string are its first bytes. -/
theorem flatMap_blockBytes_cutBlocks {n : Nat} {bs : List Byte} (h : 64 * n ≤ bs.length) :
    (cutBlocks n bs).flatMap blockBytes = bs.take (64 * n) := by
  induction n generalizing bs with
  | zero => rfl
  | succ n ih =>
    have hlen : (bs.take 64).length = 64 := by rw [List.length_take]; omega
    rw [cutBlocks, List.flatMap_cons, blockBytes_blockOfBytes _ hlen, ih (by rw [List.length_drop]; omega),
      show 64 * (n + 1) = 64 + 64 * n by omega, List.take_add]

/-- The bytes of the blocks of `pad(M)` are the padded byte string. -/
theorem flatMap_blockBytes_pad (m : List Byte) : (pad m).flatMap blockBytes = paddedBytes m := by
  rw [pad, flatMap_blockBytes_cutBlocks (paddedBytes_length m).ge, ← paddedBytes_length, List.take_length]

/-- Byte `k` of the big-endian form, the first the most significant (41 R125). -/
theorem be64_getElem_toNat (n : BitVec 64) {k : Nat} (hk : k < (be64 n).length) :
    (be64 n)[k].toNat = n.toNat / 2 ^ (8 * (7 - k)) % 256 := by
  have hbyte : (be64 n)[k] = n.extractLsb' (8 * (7 - k)) 8 := by
    rw [be64_length] at hk
    interval_cases k <;> rfl
  rw [hbyte, BitVec.extractLsb'_toNat, Nat.shiftRight_eq_div_pow]

/-- A 64-bit number is determined by its eight bytes. -/
theorem be64_injective : Function.Injective be64 := by
  intro x y h
  simp only [be64, List.cons.injEq, BitVec.toNat_eq, BitVec.extractLsb'_toNat, Nat.shiftRight_eq_div_pow] at h
  exact BitVec.eq_of_toNat_eq (by omega)

/-- The bit length of a message that may be padded fits the trailer (41 R128). -/
theorem bitLength_toNat {len : Nat} (h : len < 2 ^ 61) : (BitVec.ofNat 64 (8 * len)).toNat = 8 * len := by
  rw [BitVec.toNat_ofNat, Nat.mod_eq_of_lt (by omega)]

/-- The padded byte string is as long as its four parts (41 R121). -/
theorem paddedBytes_length_eq_sum (m : List Byte) :
    (paddedBytes m).length = m.length + 1 + zeroFill m.length + 8 := by
  simp only [paddedBytes, List.length_append, List.length_replicate, be64_length, List.length_singleton]

/-- The padded byte string with the message in front. -/
theorem paddedBytes_eq_append (m : List Byte) :
    paddedBytes m =
      m ++ ([0x80#8] ++ List.replicate (zeroFill m.length) 0#8 ++ be64 (BitVec.ofNat 64 (8 * m.length))) := by
  simp only [paddedBytes, List.append_assoc]

/-! The four kinds of byte of the padded byte string (41 R121). -/

theorem paddedBytes_getElem_message {m : List Byte} {p : Nat} (hp : p < m.length) (h : p < (paddedBytes m).length) :
    (paddedBytes m)[p] = m[p] := by
  simp only [paddedBytes_eq_append, List.getElem_append_left hp]

theorem paddedBytes_getElem_sentinel {m : List Byte} (h : m.length < (paddedBytes m).length) :
    (paddedBytes m)[m.length] = 0x80#8 := by
  simp only [paddedBytes_eq_append, List.getElem_append_right (Nat.le_refl _), Nat.sub_self, List.cons_append,
    List.getElem_cons_zero]

theorem paddedBytes_getElem_zero {m : List Byte} {p : Nat} (hm : m.length < p) (h : p + 8 < (paddedBytes m).length) :
    (paddedBytes m)[p] = 0#8 := by
  rw [paddedBytes_length_eq_sum] at h
  have hfront : p < (m ++ [0x80#8] ++ List.replicate (zeroFill m.length) 0#8).length := by
    simp only [List.length_append, List.length_replicate, List.length_singleton]
    omega
  have hpast : (m ++ [0x80#8]).length ≤ p := by rwa [List.length_append, List.length_singleton]
  simp only [paddedBytes, List.getElem_append_left hfront, List.getElem_append_right hpast, List.getElem_replicate]

theorem paddedBytes_getElem_trailer {m : List Byte} {p : Nat} (hlen : m.length < 2 ^ 61)
    (hp : (paddedBytes m).length ≤ p + 8) (h : p < (paddedBytes m).length) :
    (paddedBytes m)[p].toNat = 8 * m.length / 2 ^ (8 * ((paddedBytes m).length - 1 - p)) % 256 := by
  have hsum := paddedBytes_length_eq_sum m
  have hfront : (m ++ [0x80#8] ++ List.replicate (zeroFill m.length) 0#8).length =
      m.length + 1 + zeroFill m.length := by
    simp only [List.length_append, List.length_replicate, List.length_singleton]
  have hbyte : (paddedBytes m)[p] =
      (be64 (BitVec.ofNat 64 (8 * m.length)))[p - (m.length + 1 + zeroFill m.length)]'(by rw [be64_length]; omega) := by
    simp only [paddedBytes, List.getElem_append_right (show _ ≤ p by rw [hfront]; omega), hfront]
  have hidx : 7 - (p - (m.length + 1 + zeroFill m.length)) = (paddedBytes m).length - 1 - p := by omega
  rw [hbyte, be64_getElem_toNat, bitLength_toNat hlen, hidx]

end Sys2Proof.Machine
end

section
/-! PAD: the blocks it delivers, and that no two messages have the same (41 R121, R122, R129). -/

namespace Sys2Proof.Machine

theorem exec_pad_of_short {m : List Byte} (h : m.length < 2 ^ 61) (s : State) :
    exec (.pad m) s = .next (s.setResult (.blocks (pad m))) := if_pos h

/-- Byte `j` of block `i` of `pad(M)`. -/
theorem blockByte_pad (m : List Byte) {i j : Nat} (hi : i < (pad m).length) (hj : j < 64) :
    blockByte (pad m)[i] j =
      (paddedBytes m)[64 * i + j]'(by rw [paddedBytes_length]; rw [pad_length] at hi; omega) :=
  blockByte_cutBlocks (paddedBytes_length m).ge hi hj

/-- Settles O36: the blocks hold the padded byte string in order, whose bytes are of the four kinds. -/
theorem padLaysOutMessage : Obligations.PadLaysOutMessage := by
  intro s m hlen
  have hcount : (pad m).length = (m.length + 72) / 64 := pad_length m
  have hbytes : (paddedBytes m).length = 64 * (pad m).length := by rw [paddedBytes_length, pad_length]
  refine ⟨pad m, exec_pad_of_short hlen s, hcount, fun _ => by omega, fun _ => by omega, fun i j hi hj => ?_⟩
  rw [blockByte_pad m hi hj]
  refine ⟨fun hm => paddedBytes_getElem_message hm _, fun hm => ?_,
    fun hm hz => paddedBytes_getElem_zero hm (by rwa [hbytes]), fun ht => ?_⟩
  · simp only [hm]
    exact paddedBytes_getElem_sentinel _
  · have hlast : (paddedBytes m).length - 1 - (64 * i + j) = 63 - j := by omega
    rw [paddedBytes_getElem_trailer hlen (by rwa [hbytes]), hlast]

/-- The padded byte string determines the message: its last eight bytes give the length, and so how far the message
goes (41 R129 (d)). -/
theorem eq_of_paddedBytes_eq {m n : List Byte} (hm : m.length < 2 ^ 61) (hn : n.length < 2 ^ 61)
    (h : paddedBytes m = paddedBytes n) : m = n := by
  have htrailer : BitVec.ofNat 64 (8 * m.length) = BitVec.ofNat 64 (8 * n.length) :=
    be64_injective (List.append_inj_right' h rfl)
  have hlen : m.length = n.length := by
    have hbits := congrArg BitVec.toNat htrailer
    rw [bitLength_toNat hm, bitLength_toNat hn] at hbits
    omega
  rw [paddedBytes_eq_append, paddedBytes_eq_append] at h
  exact List.append_inj_left h hlen

/-- Settles O45: equal blocks have equal bytes, and those determine the message. -/
theorem padIsInjective : Obligations.PadIsInjective := by
  intro m n hm hn h
  refine eq_of_paddedBytes_eq hm hn ?_
  rw [← flatMap_blockBytes_pad, h, flatMap_blockBytes_pad]

end Sys2Proof.Machine
end

section
/-! Messages of 2^61 bytes or more: PAD, COMPUTE_DIGEST and HASH refuse them, and no others (41 R128). -/

namespace Sys2Proof.Machine

section
variable {m : List Byte}

theorem exec_pad_of_long (h : ¬ m.length < 2 ^ 61) (s : State) :
    exec (.pad m) s = .refused .messageTooLong := if_neg h

theorem exec_computeDigest_of_short (h : m.length < 2 ^ 61) (s : State) :
    exec (.computeDigest m) s = .next (s.setResult (.hash (computeDigest m))) := if_pos h

theorem exec_computeDigest_of_long (h : ¬ m.length < 2 ^ 61) (s : State) :
    exec (.computeDigest m) s = .refused .messageTooLong := if_neg h

theorem step_hash_of_long {s : State} {rest : List Drive} (hs : s.todo = .hash m :: rest) (h : ¬ m.length < 2 ^ 61) :
    step s = .refused .messageTooLong :=
  step_of_host ((fetch_hash hs).trans (if_neg h))

end

/-- Settles O37: the three operations on either side of the length. -/
theorem onlyTooLongMessagesAreRefused : Obligations.OnlyTooLongMessagesAreRefused := by
  intro s m rest
  refine ⟨fun h => ?_, fun h => ?_⟩
  · have hlong : ¬ m.length < 2 ^ 61 := Nat.not_lt.mpr h
    exact ⟨exec_pad_of_long hlong s, exec_computeDigest_of_long hlong s, step_hash_of_long rfl hlong⟩
  · exact ⟨⟨_, exec_pad_of_short h s⟩, ⟨_, exec_computeDigest_of_short h s⟩, _, step_hash rfl h⟩

end Sys2Proof.Machine
end

section
/-! The FRAMER after a message, however it came in: every chunk leads from the FRAMER after the bytes so far to the
FRAMER after those and the chunk (41 R123, R127, R132). -/

namespace Sys2Proof.Machine

theorem framerUpdate_counter (f : Framer) (c : List Byte) :
    (framerUpdate f c).counter = f.counter + BitVec.ofNat 64 (512 * ((f.residual ++ c).length / 64)) := rfl

theorem framerUpdate_residual (f : Framer) (c : List Byte) :
    (framerUpdate f c).residual = (f.residual ++ c).drop (64 * ((f.residual ++ c).length / 64)) := rfl

/-- `update` keeps less than a block (41 R132). -/
theorem framerUpdate_residual_length (f : Framer) (c : List Byte) :
    (framerUpdate f c).residual.length = (f.residual ++ c).length % 64 := by
  rw [framerUpdate_residual, List.length_drop]
  omega

/-- `update` emits or keeps every byte, in order (41 R132). -/
theorem updateBlocks_bytes_append_residual (f : Framer) (c : List Byte) :
    (updateBlocks f c).flatMap blockBytes ++ (framerUpdate f c).residual = f.residual ++ c := by
  rw [updateBlocks, flatMap_blockBytes_cutBlocks (Nat.mul_div_le _ 64), framerUpdate_residual, List.take_append_drop]

/-- The FRAMER once it has taken in the bytes `m`: its whole blocks counted, the rest kept. -/
def framerAfter (m : List Byte) : Framer where
  counter := BitVec.ofNat 64 (512 * (m.length / 64))
  residual := m.drop (64 * (m.length / 64))

/-- The whole blocks of the bytes `m`, which the FRAMER has emitted by then. -/
def wholeBlocks (m : List Byte) : List Block := cutBlocks (m.length / 64) m

theorem framerAfter_nil : framerAfter [] = framerStart := rfl

theorem wholeBlocks_nil : wholeBlocks [] = [] := rfl

theorem framerAfter_counter (m : List Byte) :
    (framerAfter m).counter = BitVec.ofNat 64 (512 * (m.length / 64)) := rfl

theorem framerAfter_residual (m : List Byte) : (framerAfter m).residual = m.drop (64 * (m.length / 64)) := rfl

theorem framerAfter_residual_length (m : List Byte) : (framerAfter m).residual.length = m.length % 64 := by
  rw [framerAfter_residual, List.length_drop]
  omega

/-- What the FRAMER cuts into blocks at the next bytes. -/
theorem framerAfter_residual_append (m c : List Byte) :
    (framerAfter m).residual ++ c = (m ++ c).drop (64 * (m.length / 64)) :=
  (List.drop_append_of_le_length (Nat.mul_div_le m.length 64)).symm

/-- The blocks of `m ++ c` are those of `m` and those that come with the chunk. -/
theorem blocks_count_append (m c : List Byte) :
    (m ++ c).length / 64 = m.length / 64 + ((framerAfter m).residual ++ c).length / 64 := by
  rw [List.length_append, List.length_append, framerAfter_residual_length]
  omega

/-- `update` takes the FRAMER after `m` to the FRAMER after `m ++ c`. -/
theorem framerUpdate_framerAfter (m c : List Byte) : framerUpdate (framerAfter m) c = framerAfter (m ++ c) := by
  have hcount := blocks_count_append m c
  ext1
  · rw [framerUpdate_counter, framerAfter_counter, framerAfter_counter, hcount, Nat.mul_add, BitVec.ofNat_add]
  · rw [framerUpdate_residual, framerAfter_residual (m ++ c), hcount, Nat.mul_add, ← List.drop_drop,
      ← framerAfter_residual_append]

/-- `update` emits the blocks that `m ++ c` has beyond those of `m`. -/
theorem wholeBlocks_append (m c : List Byte) :
    wholeBlocks (m ++ c) = wholeBlocks m ++ updateBlocks (framerAfter m) c := by
  rw [wholeBlocks, blocks_count_append, cutBlocks_add, cutBlocks_append _ _ _ (Nat.mul_div_le m.length 64),
    ← framerAfter_residual_append]
  rfl

/-- The counter that `finalize` writes is the bit length (41 R127). -/
theorem finalCounter_framerAfter (m : List Byte) : finalCounter (framerAfter m) = BitVec.ofNat 64 (8 * m.length) := by
  have hbits : 512 * (m.length / 64) + 8 * (m.length % 64) = 8 * m.length := by omega
  rw [finalCounter, framerAfter_residual_length, framerAfter_counter, ← BitVec.ofNat_add, hbits]

/-- A block in front. -/
theorem cutBlocks_block_append (n : Nat) {a : List Byte} (h : a.length = 64) (b : List Byte) :
    cutBlocks (n + 1) (a ++ b) = blockOfBytes a :: cutBlocks n b := by
  rw [cutBlocks, ← h, List.take_left, List.drop_left]

theorem cutBlocks_block {a : List Byte} (h : a.length = 64) : cutBlocks 1 a = [blockOfBytes a] := by
  rw [cutBlocks, ← h, List.take_length, cutBlocks]

/-- The one or two final blocks are the rest of the message, the sentinel, the zero bytes and the counter, cut
(41 R123). -/
theorem finalBlocks_eq_cutBlocks {f : Framer} (hf : f.residual.length < 64) :
    finalBlocks f = cutBlocks (blockCount f.residual.length)
      (f.residual ++ [0x80#8] ++ List.replicate (zeroFill f.residual.length) 0#8 ++ be64 (finalCounter f)) := by
  by_cases hr : f.residual.length ≤ 55
  · have hcount : blockCount f.residual.length = 1 := by rw [blockCount]; omega
    have hzeros : zeroFill f.residual.length = 55 - f.residual.length := by rw [zeroFill]; omega
    rw [finalBlocks, if_pos hr, hcount, hzeros, cutBlocks_block]
    simp only [List.length_append, List.length_replicate, be64_length, List.length_singleton]
    omega
  · have hcount : blockCount f.residual.length = 1 + 1 := by rw [blockCount]; omega
    have hzeros : zeroFill f.residual.length = (63 - f.residual.length) + 56 := by rw [zeroFill]; omega
    have hfirst : (f.residual ++ [0x80#8] ++ List.replicate (63 - f.residual.length) 0#8).length = 64 := by
      simp only [List.length_append, List.length_replicate, List.length_singleton]
      omega
    rw [finalBlocks, if_neg hr, hcount, hzeros, List.replicate_add, ← List.append_assoc,
      List.append_assoc _ _ (be64 _), cutBlocks_block_append 1 hfirst, cutBlocks_block]
    rw [List.length_append, List.length_replicate, be64_length]

/-- Past the whole blocks of the message the padded byte string is what `finalize` cuts. -/
theorem paddedBytes_drop_wholeBlocks (m : List Byte) :
    (paddedBytes m).drop (64 * (m.length / 64)) = (framerAfter m).residual ++ [0x80#8] ++
      List.replicate (zeroFill (framerAfter m).residual.length) 0#8 ++ be64 (finalCounter (framerAfter m)) := by
  have hzeros : zeroFill (m.length % 64) = zeroFill m.length := by rw [zeroFill, Nat.mod_mod, zeroFill]
  rw [finalCounter_framerAfter, framerAfter_residual_length, hzeros, paddedBytes_eq_append,
    ← framerAfter_residual_append]
  simp only [List.append_assoc]

/-- The blocks so far and those of `finalize` are `pad(M)`. -/
theorem wholeBlocks_append_finalBlocks (m : List Byte) : wholeBlocks m ++ finalBlocks (framerAfter m) = pad m := by
  have hres := framerAfter_residual_length m
  have hcount : blockCount m.length = m.length / 64 + blockCount (framerAfter m).residual.length := by
    rw [hres, blockCount, blockCount]
    omega
  have hwhole : cutBlocks (m.length / 64) (paddedBytes m) = wholeBlocks m := by
    rw [paddedBytes_eq_append, cutBlocks_append _ _ _ (Nat.mul_div_le m.length 64), wholeBlocks]
  rw [pad, hcount, cutBlocks_add, hwhole, paddedBytes_drop_wholeBlocks, finalBlocks_eq_cutBlocks (by omega)]

/-- Settles O42: the FRAMER after one `update` with the whole message is the FRAMER after the message. -/
theorem framerProcedureEqualsPad : Obligations.FramerProcedureEqualsPad := by
  intro m _
  have hblocks := wholeBlocks_append [] m
  rw [wholeBlocks_nil, List.nil_append, List.nil_append] at hblocks
  rw [← framerAfter_nil, ← hblocks, framerUpdate_framerAfter, List.nil_append, wholeBlocks_append_finalBlocks]

/-- One `update` of the chunked form: the FRAMER, and the blocks emitted so far. -/
def chunkStep (st : Framer × List Block) (c : List Byte) : Framer × List Block :=
  (framerUpdate st.1 c, st.2 ++ updateBlocks st.1 c)

/-- The updates lead to the FRAMER after the bytes of all the chunks. -/
theorem foldl_chunkStep (chunks : List (List Byte)) (m : List Byte) :
    chunks.foldl chunkStep (framerAfter m, wholeBlocks m) =
      (framerAfter (m ++ chunks.flatten), wholeBlocks (m ++ chunks.flatten)) := by
  induction chunks generalizing m with
  | nil => rw [List.foldl_nil, List.flatten_nil, List.append_nil]
  | cons c chunks ih =>
    rw [List.foldl_cons, List.flatten_cons, ← List.append_assoc, ← ih, chunkStep, framerUpdate_framerAfter,
      wholeBlocks_append]

/-- Settles O43: by induction on the chunks, the FRAMER is the one after the concatenation. -/
theorem chunkedFramingEqualsWhole : Obligations.ChunkedFramingEqualsWhole := by
  intro chunks hlen run
  have hrun : run = _ := foldl_chunkStep chunks []
  rw [hrun, List.nil_append]
  refine ⟨wholeBlocks_append_finalBlocks _, ?_, ?_⟩
  · rw [finalCounter_framerAfter, bitLength_toNat hlen]
  · exact (framerAfter_residual_length _).trans_lt (Nat.mod_lt _ (Nat.zero_lt_succ 63))

end Sys2Proof.Machine
end

section
/-! The FRAMER in the machine: what its items do, and all that a step can do to its state (41 R130, R132). -/

namespace Sys2Proof.Machine

section
variable {f : Framer} {c : List Byte}

/-- While the bit count of all bytes taken in fits, `update` is not refused (41 R128; log 7). -/
theorem updateFits_of_bits_lt (h : f.counter.toNat + 8 * (f.residual ++ c).length < 2 ^ 64) :
    updateFits f c = true := decide_eq_true (by omega)

/-- The counter after `update` and the bits kept are the bits taken in (41 R127). -/
theorem framerUpdate_counter_toNat (h : f.counter.toNat + 8 * (f.residual ++ c).length < 2 ^ 64) :
    (framerUpdate f c).counter.toNat + 8 * (framerUpdate f c).residual.length =
      f.counter.toNat + 8 * (f.residual ++ c).length := by
  rw [framerUpdate_residual_length, framerUpdate_counter, BitVec.toNat_add, BitVec.toNat_ofNat, Nat.add_mod_mod,
    Nat.mod_eq_of_lt (by omega)]
  omega

/-- The counter `finalize` writes, where it fits (41 R127). -/
theorem finalCounter_toNat (h : f.counter.toNat + 8 * f.residual.length < 2 ^ 64) :
    (finalCounter f).toNat = f.counter.toNat + 8 * f.residual.length := by
  rw [finalCounter, BitVec.toNat_add, BitVec.toNat_ofNat, Nat.add_mod_mod, Nat.mod_eq_of_lt h]

end

section
variable {s : State} {rest : List Drive}

theorem step_framerInit (h : s.todo = .framerInit :: rest) :
    step s = .next ((s.setTodo rest).setFramer framerStart) := step_of_host (fetch_framerInit h)

theorem step_framerUpdate {chunk : List Byte} (h : s.todo = .framerUpdate chunk :: rest)
    (hfits : updateFits s.framer chunk = true) :
    step s = .next ((s.setTodo (deliverBlocks (updateBlocks s.framer chunk) ++ rest)).setFramer
      (framerUpdate s.framer chunk)) :=
  step_of_host ((fetch_framerUpdate h).trans (if_pos hfits))

theorem step_framerFinalize (h : s.todo = .framerFinalize :: rest) (hfits : finalizeFits s.framer = true) :
    step s = .next ((s.setTodo (deliverBlocks (finalBlocks s.framer) ++ rest)).setFramer (framerFinish s.framer)) :=
  step_of_host ((fetch_framerFinalize h).trans (if_pos hfits))

end

/-- Settles O44: each item as a step, and the bytes and bits of `update` and `finalize`. -/
theorem framerItemsDeliverBlocks : Obligations.FramerItemsDeliverBlocks := by
  intro s rest chunk
  refine ⟨⟨_, step_framerInit rfl, rfl, rfl, rfl, rfl, rfl⟩, fun h => ?_, fun h => ?_⟩
  · exact ⟨_, step_framerUpdate rfl (updateFits_of_bits_lt h), rfl, rfl, rfl, rfl, rfl,
      updateBlocks_bytes_append_residual s.framer chunk, framerUpdate_residual_length s.framer chunk,
      framerUpdate_counter_toNat h⟩
  · exact ⟨_, step_framerFinalize rfl (decide_eq_true h), rfl, rfl, rfl, rfl, rfl, finalCounter_toNat h⟩

/-- Everything a step can do to the FRAMER's state. -/
inductive FramerChange (f : Framer) : Framer → Prop
  | keep : FramerChange f f
  | start : FramerChange f framerStart
  | update (chunk : List Byte) : FramerChange f (framerUpdate f chunk)
  | finish : FramerChange f (framerFinish f)

/-- What an item that goes on without an edge only under a condition leads to. -/
theorem hostIf_next {c : Prop} [Decidable c] {t u : State} {other : Fetched}
    (h : (if c then .host (.next u) else other) = Fetched.host (.next t)) (hother : other ≠ .host (.next t)) :
    t = u := by
  split at h
  · cases h
    rfl
  · exact absurd h hother

/-- Where the host acts alone, its item says what becomes of the FRAMER. -/
theorem fetch_host_framer {s t : State} (hf : fetch s = .host (.next t)) : FramerChange s.framer t.framer := by
  cases htodo : s.todo with
  | nil => rw [fetch_nil htodo] at hf; cases hf
  | cons item rest =>
    cases item with
    | framerInit => rw [fetch_framerInit htodo] at hf; cases hf; exact .start
    | framerUpdate chunk => rw [hostIf_next ((fetch_framerUpdate htodo).symm.trans hf) nofun]; exact .update chunk
    | framerFinalize => rw [hostIf_next ((fetch_framerFinalize htodo).symm.trans hf) nofun]; exact .finish
    | expect e => rw [hostIf_next ((fetch_expect htodo).symm.trans hf) nofun]; exact .keep
    | hash m => rw [hostIf_next ((fetch_hash htodo).symm.trans hf) nofun]; exact .keep
    | digest => rw [hostIf_next ((fetch_digest htodo).symm.trans hf) nofun]; exact .keep
    | idle n =>
      cases n with
      | zero => rw [fetch_idle_zero htodo] at hf; cases hf; exact .keep
      | succ n => rw [fetch_idle_succ htodo] at hf; cases hf
    | wait =>
      cases hr : s.regs.ready with
      | true => rw [fetch_wait_ready htodo hr] at hf; cases hf; exact .keep
      | false => rw [fetch_wait_busy htodo hr] at hf; cases hf
    | offer op blk =>
      cases hr : s.regs.ready with
      | true => rw [fetch_offer_ready htodo hr] at hf; cases hf
      | false => rw [fetch_offer_busy htodo hr] at hf; cases hf
    | command op blk =>
      cases hr : s.regs.ready with
      | true => rw [fetch_command_ready htodo hr] at hf; cases hf
      | false => rw [fetch_command_busy htodo hr] at hf; cases hf
    | reset => rw [fetch_reset htodo] at hf; cases hf
    | edge p => rw [fetch_edge htodo] at hf; cases hf
    | apply i => rw [fetch_apply htodo] at hf; cases hf

/-- Every step changes the FRAMER by one of the four rules; an operation of the core keeps it. -/
theorem step_framer {s t : State} (h : step s = .next t) : FramerChange s.framer t.framer := by
  rcases step_next h with ⟨i, rest, he⟩ | hf
  · obtain ⟨-, -, hframer, -⟩ := exec_next he
    rw [hframer]
    exact .keep
  · exact fetch_host_framer hf

/-- The residual bound over the four ways the FRAMER can change; `update` meets it whatever was kept before. -/
theorem FramerChange.framerInv {f f' : Framer} (hc : FramerChange f f') (hi : FramerInv f) : FramerInv f' := by
  cases hc with
  | keep => exact hi
  | start => exact Nat.zero_lt_succ 63
  | update chunk => exact (framerUpdate_residual_length f chunk).trans_lt (Nat.mod_lt _ (Nat.zero_lt_succ 63))
  | finish => exact Nat.zero_lt_succ 63

/-- Settles O52: a step changes the FRAMER by one of four rules, and each keeps the bound. -/
theorem framerResidualStaysPartial : Obligations.FramerResidualStaysPartial := by
  intro s t hi hstep
  exact (step_framer hstep).framerInv hi

end Sys2Proof.Machine
end

section
/-! The message schedule as SCHED delivers it (42 R141, R142). -/

namespace Sys2Proof.Machine

/-- Settles O31: words 0 to 15 are the block's, and word `t` is the recurrence over the schedule's own words, with
`t` counted from word 16. -/
theorem scheduleFollowsRecurrence : Obligations.ScheduleFollowsRecurrence := by
  intro s blk
  refine ⟨sched blk, rfl, sched_getElem_low blk, fun t ht hlo => ?_⟩
  obtain ⟨n, rfl⟩ := Nat.exists_eq_add_of_le' hlo
  simpa only [recurrence, add32, Nat.reduceSubDiff, Nat.add_sub_cancel] using
    sched_getElem_recurrence blk n (by omega)

end Sys2Proof.Machine
end

section
/-! The block in progress as an invariant (43 R160, 42 R143): what it says in each phase, how LOAD begins it, and how
ROUND carries it to the next round or, after round 63, into UPDATE. -/

namespace Sys2Proof.Machine

theorem blockInProgress_of_idle {r : Regs} (hp : r.phase = .idle) : BlockInProgress r := by
  simp only [BlockInProgress, hp]

theorem blockInProgress_iff_of_round {r : Regs} (hp : r.phase = .round) :
    BlockInProgress r ↔
      ∃ blk, AgreeUpTo r.w blk (max 16 r.t.toNat) ∧ r.v = varsAfter r.h (sched blk) r.t.toNat := by
  simp only [BlockInProgress, hp, AgreeUpTo]

theorem blockInProgress_iff_of_update {r : Regs} (hp : r.phase = .update) :
    BlockInProgress r ↔ ∃ blk, r.w = sched blk ∧ r.v = varsAfter r.h (sched blk) 64 := by
  simp only [BlockInProgress, hp]

/-- LOAD begins a block: words 0 to 15 stand in `W`, no round is done (43 R153). -/
theorem blockInProgress_loadRegs (blk : Block) (r : Regs) : BlockInProgress (loadRegs blk r) :=
  (blockInProgress_iff_of_round rfl).2 ⟨blk, agreeUpTo_load blk r.w, (varsAfter_zero _ _).symm⟩

/-- ROUND leaves the variables after one more round of the block (43 R155, R159). -/
theorem roundRegs_v_of_agree {r : Regs} {blk : Block} (hw : AgreeUpTo r.w blk (max 16 r.t.toNat))
    (hv : r.v = varsAfter r.h (sched blk) r.t.toNat) :
    (roundRegs r).v = varsAfter r.h (sched blk) (r.t.toNat + 1) := by
  rw [roundRegs_v, roundWord_of_agree hw, hv, varsAfter_succ, BitVec.ofNat_toNat, BitVec.setWidth_eq]

/-- ROUND keeps the block in progress: `W` gains word `t` and `V` round `t`, whether the counter goes on or round 63
leads into UPDATE (43 R155, R160). -/
theorem blockInProgress_roundRegs {r : Regs} (hp : r.phase = .round) (hb : BlockInProgress r) :
    BlockInProgress (roundRegs r) := by
  obtain ⟨blk, hw, hv⟩ := (blockInProgress_iff_of_round hp).1 hb
  have hw' := roundW_agree hw
  have hv' := roundRegs_v_of_agree hw hv
  have ht : r.t.toNat < 64 := r.t.isLt
  by_cases hlast : r.t.toNat = 63
  · rw [hlast] at hw' hv'
    exact (blockInProgress_iff_of_update (roundRegs_sequencer_of_last hlast).1).2 ⟨blk, eq_of_agree hw', hv'⟩
  · obtain ⟨hphase, hcount⟩ := roundRegs_sequencer_of_lt hp (by omega)
    rw [← hcount] at hw' hv'
    exact (blockInProgress_iff_of_round hphase).2 ⟨blk, hw', hv'⟩

/-- The block in progress over the eight ways the registers can change: LOAD begins it, ROUND carries it on, and
every other change keeps the registers or ends in IDLE, where nothing is claimed. -/
theorem RegsChange.blockInProgress {r r' : Regs} (hc : RegsChange r r') (hb : BlockInProgress r) :
    BlockInProgress r' := by
  cases hc with
  | keep => exact hb
  | init hp => exact blockInProgress_of_idle hp
  | block hp blk => exact blockInProgress_of_idle (blockRegs_phase blk r)
  | rsvd hp => exact blockInProgress_of_idle hp
  | load hp blk => exact blockInProgress_loadRegs blk r
  | round hp => exact blockInProgress_roundRegs hp hb
  | update hp => exact blockInProgress_of_idle rfl
  | reset => exact blockInProgress_of_idle rfl

/-- Settles O50: a step changes the registers by one of eight rules, and each keeps the block in progress. -/
theorem blockInProgressKept : Obligations.BlockInProgressKept := by
  intro s t hb hstep
  exact (step_regs hstep).blockInProgress hb

end Sys2Proof.Machine
end

section
/-! The three clocked micro-operations in their phases: LOAD, ROUND and UPDATE as 43 R153, R155 and R158 list their
writes, with what each leaves alone and the edge that performs it. -/

namespace Sys2Proof.Machine

/-- A write of the core's registers leaves the host's own state and the result latch. -/
theorem hostKept_setRegs (s : State) (r : Regs) : HostKept s (s.setRegs r) :=
  ⟨s.setRegs_todo r, s.setRegs_framer r, s.setRegs_sampled r, s.setRegs_result r⟩

/-- Settles O19: the state LOAD leaves, its schedule registers on both sides of word 16. -/
theorem loadStartsTheBlock : Obligations.LoadStartsTheBlock := by
  intro s blk hp
  refine ⟨s.setRegs (loadRegs blk s.regs), exec_load_of_idle hp blk, fun j hj => ?_, fun j hj hhi => ?_,
    varsOf_word s.regs.h, rfl, rfl, rfl, rfl, rfl, rfl, hostKept_setRegs _ _,
    fun rest => step_edge_load (p := ⟨false, true, 0b10, blk⟩) rfl rfl hp rfl rfl⟩
  · rw [State.setRegs_regs, loadRegs_w, loadW_getElem, if_pos hj, blockWord]
  · rw [State.setRegs_regs, loadRegs_w, loadW_getElem, if_neg (by omega)]

/-- From round 16 on ROUND writes word `t` and keeps every other (43 R155). -/
theorem roundW_getElem_high {t : BitVec 6} (ht : 16 ≤ t.toNat) (w : Schedule) (j : Nat) (hj : j < 64) :
    (roundW w t)[j] = if t.toNat = j then roundWord w t else w[j] := by
  rw [roundW_high ht, roundWord_high ht, writeW_getElem]

/-- Settles O20: the state ROUND leaves. Below round 16 the word used stands in `W`; from round 16 on it is the
recurrence, and `W` gains it; the counter goes on but for round 63. -/
theorem roundPerformsOneRound : Obligations.RoundPerformsOneRound := by
  intro s hp
  refine ⟨s.setRegs (roundRegs s.regs), roundWord s.regs.w s.regs.t, exec_round_of_round hp, fun hlo => ?_,
    fun n hn hcount hhi => ?_, rfl, fun hlast => ?_, fun hne => ?_, rfl, rfl, rfl, hostKept_setRegs _ _,
    fun v op blk rest => step_edge_round rfl rfl hp⟩
  · exact ⟨roundWord_low hlo s.regs.w, roundW_low hlo s.regs.w⟩
  · subst hcount
    have hw := roundW_getElem_high hhi s.regs.w
    refine ⟨?_, (hw _ hn).trans (if_pos rfl), fun j hj hne => (hw j hj).trans (if_neg hne.symm)⟩
    exact (roundWord_high hhi s.regs.w).trans (nextW_eq s.regs.w s.regs.t hhi)
  · exact roundRegs_sequencer_of_last (congrArg BitVec.toNat hlast)
  · have hne' : s.regs.t.toNat ≠ 63 := fun e => hne (BitVec.eq_of_toNat_eq e)
    exact roundRegs_sequencer_of_lt hp (by have := s.regs.t.isLt; omega)

/-- Settles O21: the state UPDATE leaves, each word of `H` by the fold-back. -/
theorem updateFoldsBack : Obligations.UpdateFoldsBack := by
  intro s hp
  refine ⟨s.setRegs (updateRegs s.regs), exec_update_of_update hp, fun k => ?_, rfl, rfl, rfl, rfl, rfl, rfl, rfl,
    hostKept_setRegs _ _, fun v op blk rest => step_edge_update rfl rfl hp⟩
  rw [State.setRegs_regs, updateRegs_h, foldBack_word, add32, BitVec.toNat_add]

end Sys2Proof.Machine
end

section
/-! The round and `compress` as functions (43 R151, R152, R154, R159). -/

namespace Sys2Proof.Machine

/-- The sum of five words is reduced once, whatever is reduced on the way (43 R151). -/
theorem t1_toNat (e f g h k w : Word) :
    (t1 e f g h k w).toNat =
      ((upperSigma1 e).toNat + (choice e f g).toNat + h.toNat + k.toNat + w.toNat) % 2 ^ 32 := by
  simp only [t1, add32, BitVec.toNat_add, Nat.mod_add_mod]

/-- Settles O32: T1 by its sum of five, T2 by a single addition. -/
theorem roundTermsAreSums : Obligations.RoundTermsAreSums :=
  ⟨fun _ e f g h k w => ⟨t1 e f g h k w, rfl, t1_toNat e f g h k w⟩,
    fun _ a b c => ⟨t2 a b c, rfl, BitVec.toNat_add (upperSigma0 a) (majority a b c)⟩⟩

/-- Settles O33: ROUNDFN delivers `roundFn`, which is the eight assignments. -/
theorem roundFunctionShiftsVariables : Obligations.RoundFunctionShiftsVariables := by
  intro s v k w
  exact ⟨roundFn v k w, rfl, rfl, rfl, rfl, rfl, rfl, rfl, rfl, rfl⟩

/-- The 6-bit counter holds every round number (10 R25). -/
theorem toNat_ofNat_counter {t : Nat} (ht : t < 64) : (BitVec.ofNat 6 t).toNat = t :=
  Nat.mod_eq_of_lt ht

/-- The round constant of round `t` is row `t` of the table (20 R53). -/
theorem romK_ofNat {t : Nat} (ht : t < 64) : romK (BitVec.ofNat 6 t) = kRows[t]'(kRows_length ▸ ht) := by
  simp only [romK, toNat_ofNat_counter ht]

theorem readW_ofNat (w : Schedule) {t : Nat} (ht : t < 64) : readW w (BitVec.ofNat 6 t) = w[t] := by
  simp only [readW, toNat_ofNat_counter ht]

/-- Settles O34: `V_n` is `varsAfter` over the block's schedule. -/
theorem compressIteratesRounds : Obligations.CompressIteratesRounds := by
  intro s h blk
  refine ⟨compress h blk, varsAfter h (sched blk), rfl, fun k => ?_, fun t ht => ?_, compress_word h blk⟩
  · rw [varsAfter_zero, varsOf_word]
  · rw [varsAfter_succ, romK_ofNat ht, readW_ofNat _ ht]

end Sys2Proof.Machine
end

section
/-! The 66 edges of a BLOCK (43 R160): the registers after LOAD and after each ROUND as one value, by induction on the
rounds done, and UPDATE at the end. -/

namespace Sys2Proof.Machine

/-- After `n` of the edges the host drives edge `n` next. -/
theorem todo_drop_edge {ps : List Pins} {n : Nat} (hn : n < ps.length) (rest : List Drive) :
    (ps.drop n).map Drive.edge ++ rest = .edge ps[n] :: ((ps.drop (n + 1)).map .edge ++ rest) := by
  rw [List.drop_eq_getElem_cons hn, List.map_cons, List.cons_append]

/-! The edge of a ROUND and of UPDATE over any registers `r`, so that no proof below compares the registers of a block
in progress by computation. -/

section
variable {r : Regs} {p : Pins} (hr : p.rst = false) (s : State) (rest : List Drive)
include hr

theorem step_setRegs_round (hp : r.phase = .round) :
    step ((s.setTodo (.edge p :: rest)).setRegs r) = .next ((s.setTodo rest).setRegs (roundRegs r)) :=
  step_edge_round rfl hr hp

theorem step_setRegs_update (hp : r.phase = .update) :
    step ((s.setTodo (.edge p :: rest)).setRegs r) = .next ((s.setTodo rest).setRegs (updateRegs r)) :=
  step_edge_update rfl hr hp

end

theorem midRegs_phase_round {n : Nat} (hn : n < 64) (r : Regs) (blk : Block) (w : Schedule) :
    (midRegs r blk n w).phase = .round := if_neg (by omega)

theorem midRegs_phase_update (r : Regs) (blk : Block) (w : Schedule) : (midRegs r blk 64 w).phase = .update := by
  rw [midRegs, if_pos rfl]

/-- From LOAD until UPDATE the core is busy (10 R28). -/
theorem midRegs_ready (r : Regs) (blk : Block) (n : Nat) (w : Schedule) : (midRegs r blk n w).ready = false := by
  rw [Regs.ready_eq_false, midRegs]
  split <;> nofun

section
variable {s : State} {blk : Block} {ps : List Pins} {rest : List Drive}
  (hp : s.regs.phase = .idle) (hlen : ps.length = 65) (hrst : ∀ p ∈ ps, p.rst = false)
  (htodo : s.todo = .edge ⟨false, true, 0b10, blk⟩ :: (ps.map .edge ++ rest))
include hp hlen hrst htodo

/-- LOAD and `n` ROUNDs from an accept of BLOCK: `n` inputs are used up, and the schedule registers agree with the
block's schedule as far as 43 R160 says. -/
theorem run_load_rounds {n : Nat} (hn : n ≤ 64) :
    ∃ w, AgreeUpTo w blk (max 16 n) ∧
      run (n + 1) s = .next ((s.setTodo ((ps.drop n).map .edge ++ rest)).setRegs (midRegs s.regs blk n w)) := by
  induction n with
  | zero =>
    refine ⟨loadW blk s.regs.w 16, agreeUpTo_load blk s.regs.w, ?_⟩
    rw [run_one, step_edge_load htodo rfl hp rfl rfl, loadRegs_eq_mid, List.drop_zero]
  | succ n ih =>
    obtain ⟨w, hw, hrun⟩ := ih (by omega)
    have hlt : n < ps.length := by omega
    refine ⟨roundW w (BitVec.ofNat 6 n), ?_, ?_⟩
    · have h := roundW_agree (w := w) (blk := blk) (t := BitVec.ofNat 6 n)
      rw [toNat_ofNat_counter (by omega)] at h
      exact h hw
    · rw [todo_drop_edge hlt] at hrun
      rw [run_add hrun 1, run_one, step_setRegs_round (hrst _ (List.getElem_mem hlt)) _ _
        (midRegs_phase_round (by omega) s.regs blk w), roundRegs_mid (by omega) hw]

/-- The 66 edges from an accept of BLOCK leave what the whole command leaves (43 R160). -/
theorem run_block : run Config.blockEdges s = .next ((s.setTodo rest).setRegs (blockRegs blk s.regs)) := by
  obtain ⟨w, hw, hrun⟩ := run_load_rounds hp hlen hrst htodo (Nat.le_refl 64)
  have hlt : 64 < ps.length := by omega
  obtain rfl : w = sched blk := eq_of_agree hw
  rw [todo_drop_edge hlt, List.drop_eq_nil_of_le (by omega), List.map_nil, List.nil_append] at hrun
  rw [show Config.blockEdges = 64 + 1 + 1 from rfl, run_add hrun 1, run_one,
    step_setRegs_update (hrst _ (List.getElem_mem hlt)) _ _ (midRegs_phase_update s.regs blk (sched blk)),
    updateRegs_mid]

end

/-- Settles O56: the registers after each edge are read off `midRegs`, and the last edge ends in `blockRegs`. -/
theorem clockedCoreComputesCompress : Obligations.ClockedCoreComputesCompress := by
  intro s blk ps rest hp hlen hrst htodo
  have hblock := run_block hp hlen hrst htodo
  refine ⟨fun n hn => ?_, ?_, _, hblock, ?_, ?_, ?_⟩
  · obtain ⟨w, hw, hrun⟩ := run_load_rounds hp hlen hrst htodo hn
    exact ⟨_, hrun, rfl, midRegs_ready _ _ _ _, rfl, rfl, rfl, hw,
      fun hlt => ⟨midRegs_phase_round hlt _ _ _, toNat_ofNat_counter hlt⟩, fun hlast => if_pos hlast⟩
  · rw [hblock]
    exact (exec_block_of_idle (s := s.setTodo rest) hp blk).symm
  · rw [State.setRegs_regs, blockRegs_h]
  · rw [State.setRegs_regs, blockRegs_dv]
  · rw [State.setRegs_regs, blockRegs_phase]

end Sys2Proof.Machine
end

section
/-! `hash_blocks` as a fold, and `H` as a fold from `IV` at every step (44 R179, R180). -/

namespace Sys2Proof.Machine

/-- A list in two parts is folded part by part (44 R179). -/
theorem hashBlocks_append (h : HashState) (bs cs : List Block) :
    hashBlocks h (bs ++ cs) = hashBlocks (hashBlocks h bs) cs := by
  induction bs generalizing h with
  | nil => rfl
  | cons b bs ih => exact ih (compress h b)

/-- One more block at the end of the fold is one more `compress`. -/
theorem hashBlocks_concat (h : HashState) (bs : List Block) (b : Block) :
    hashBlocks h (bs ++ [b]) = compress (hashBlocks h bs) b := by
  rw [hashBlocks_append, hashBlocks, hashBlocks]

/-- Settles O35: the equations are the definition's own; the law for two parts is by induction on the first. -/
theorem hashBlocksFoldsCompress : Obligations.HashBlocksFoldsCompress :=
  ⟨fun _ _ _ => rfl, fun _ => rfl, fun _ _ _ => rfl, hashBlocks_append⟩

/-- A hash state that folds a block into a fold from `IV` is such a fold, of at least one block. -/
theorem Chained.of_compress {r r' : Regs} (hc : Chained r) {blk : Block} (h : r'.h = compress r.h blk) :
    Chained r' := by
  obtain ⟨blks, hfold, -⟩ := hc
  exact ⟨blks ++ [blk], by rw [h, hfold, hashBlocks_concat], fun _ => by simp⟩

/-- At `IV` with `dv = 0` no block is folded yet. -/
theorem Chained.of_iv {r : Regs} (hh : r.h = iv) (hdv : r.dv = false) : Chained r :=
  ⟨[], hh, fun h => absurd h (by rw [hdv]; decide)⟩

/-- UPDATE folds the block in progress back into `H` (43 R158, R159). -/
theorem updateRegs_h_of_blockInProgress {r : Regs} (hp : r.phase = .update) (hb : BlockInProgress r) :
    ∃ blk, (updateRegs r).h = compress r.h blk := by
  obtain ⟨blk, -, hv⟩ := (blockInProgress_iff_of_update hp).1 hb
  exact ⟨blk, by rw [updateRegs_h, hv, compress_eq]⟩

/-- The chain over the eight ways the registers can change: BLOCK and UPDATE add a block, INIT and RESET begin anew,
and the others keep `H` and do not raise `dv`. -/
theorem RegsChange.chained {r r' : Regs} (hc : RegsChange r r') (hb : BlockInProgress r) (hch : Chained r) :
    Chained r' := by
  have ⟨blks, hfold, hdv⟩ := hch
  cases hc with
  | keep => exact hch
  | init hp => exact .of_iv rfl rfl
  | block hp blk => exact hch.of_compress (blockRegs_h blk r)
  | rsvd hp => exact ⟨blks, hfold, hdv⟩
  | load hp blk => exact ⟨blks, hfold, nofun⟩
  | round hp => exact ⟨blks, hfold, hdv⟩
  | update hp =>
    obtain ⟨blk, h⟩ := updateRegs_h_of_blockInProgress hp hb
    exact hch.of_compress h
  | reset => exact .of_iv rfl rfl

/-- Settles O51: a step changes the registers by one of eight rules, and each keeps the chain, UPDATE because the
block in progress is in place. -/
theorem hashStateStaysChained : Obligations.HashStateStaysChained := by
  intro s t hb hch hstep
  exact (step_regs hstep).chained hb hch

end Sys2Proof.Machine
end

section
/-! The commands in IDLE: NOP and HOLD, INIT, BLOCK and the reserved opcode, each as a whole command and, where it
is one edge, as the edge that accepts it (44 R170 to R174). -/

namespace Sys2Proof.Machine

/-- An edge in IDLE that offers a command performs what the offer decodes to (30 R87). -/
theorem step_edge_offer {s : State} (hp : s.regs.phase = .idle) (op : BitVec 2) (blk : Block) (rest : List Drive) :
    step (s.setTodo (.edge ⟨false, true, op, blk⟩ :: rest)) = exec (decodeOffer op blk) (s.setTodo rest) :=
  step_edge_idle (s := s.setTodo (.edge ⟨false, true, op, blk⟩ :: rest)) rfl rfl hp

/-- Settles O14: both operations answer the state they are given, and they are what the two edges perform. -/
theorem nopAndHoldChangeNothing : Obligations.NopAndHoldChangeNothing :=
  ⟨fun _ => ⟨rfl, rfl⟩, fun s op blk rest hp =>
    ⟨step_edge_offer hp 0b00 blk rest,
      step_edge_idle (s := s.setTodo (.edge ⟨false, false, op, blk⟩ :: rest)) rfl rfl hp⟩⟩

/-- INIT a second time writes nothing new (44 R171). -/
theorem initRegs_initRegs (r : Regs) : initRegs (initRegs r) = initRegs r := rfl

/-- A second reserved opcode writes nothing new (44 R173). -/
theorem raiseIllegalCommand_raiseIllegalCommand (r : Regs) :
    raiseIllegalCommand (raiseIllegalCommand r) = raiseIllegalCommand r := rfl

/-- Settles O15: the state INIT leaves, and INIT again in that state and in the reset state, where it writes what is
there. -/
theorem initLoadsIVAndClearsValid : Obligations.InitLoadsIVAndClearsValid := by
  refine ⟨fun s hp => ?_, exec_init_of_idle rfl⟩
  refine ⟨s.setRegs (initRegs s.regs), exec_init_of_idle hp, fun k => rfl, rfl, rfl, rfl, hp,
    (Regs.ready_eq_true _).mpr hp, rfl, rfl, hostKept_setRegs _ _, ?_, fun blk rest => ?_⟩
  · rw [exec_init_of_idle (s := s.setRegs (initRegs s.regs)) hp, State.setRegs_setRegs, State.setRegs_regs,
      initRegs_initRegs]
  · exact (step_edge_offer hp 0b01 blk rest).trans (exec_init_of_idle (s := s.setTodo rest) hp)

/-- Settles O17: the state RSVD leaves, the fault it records, and RSVD again in that state. -/
theorem reservedOpcodeSetsErrOnly : Obligations.ReservedOpcodeSetsErrOnly := by
  intro s hp
  refine ⟨s.setRegs (raiseIllegalCommand s.regs), exec_rsvd_of_idle hp, rfl, rfl, rfl, rfl, rfl, rfl, rfl, rfl, rfl,
    (Regs.ready_eq_true _).mpr hp, hostKept_setRegs _ _, ?_, fun blk rest => ?_⟩
  · rw [exec_rsvd_of_idle (s := s.setRegs (raiseIllegalCommand s.regs)) hp, State.setRegs_setRegs,
      State.setRegs_regs, raiseIllegalCommand_raiseIllegalCommand]
  · exact (step_edge_offer hp 0b11 blk rest).trans (exec_rsvd_of_idle (s := s.setTodo rest) hp)

/-- Settles O16: the state BLOCK leaves, each word of `H` by `compress` over the variables it leaves in `V`. -/
theorem blockFoldsIntoHashState : Obligations.BlockFoldsIntoHashState := by
  intro s blk hp
  refine ⟨s.setRegs (blockRegs blk s.regs), exec_block_of_idle hp blk, ?_, ?_, ?_, ?_, ?_, ?_, fun k => ?_,
    hostKept_setRegs _ _⟩
  · rw [State.setRegs_regs, blockRegs_h]
  · rw [State.setRegs_regs, blockRegs_dv]
  · rw [State.setRegs_regs, blockRegs_err]
  · rw [State.setRegs_regs, Regs.ready_eq_true, blockRegs_phase]
  · rw [State.setRegs_regs, blockRegs_t]
  · rw [State.setRegs_regs, blockRegs_w]
  · rw [State.setRegs_regs, blockRegs_h, blockRegs_v, compress_word]

/-- Settles O38: PAD delivers `pad(M)`, HASHBLOCKS its fold from `IV`, and COMPUTE_DIGEST is that fold. -/
theorem computeDigestHashesPaddedMessage : Obligations.ComputeDigestHashesPaddedMessage := by
  intro s m hlen
  exact ⟨pad m, computeDigest m, exec_pad_of_short hlen s, rfl, exec_computeDigest_of_short hlen s⟩

end Sys2Proof.Machine
end

section
/-! The canonical rendering: each character is the digit of four bits of the port, and the digits from the top spell
the port's value (44 R182). -/

namespace Sys2Proof.Machine

theorem hexDigits_getD_mem : ∀ n < 16, hexDigits.getD n '0' ∈ hexDigits := by decide

/-- The place of a digit among the sixteen is its value. -/
theorem hexDigits_idxOf_getD : ∀ n < 16, hexDigits.idxOf (hexDigits.getD n '0') = n := by decide

/-- The four bits of the port that digit `i` shows, the first the most significant. -/
def digestNibble (d : Digest) (i : Nat) : Nat := (d.extractLsb' (252 - 4 * i) 4).toNat

theorem digestNibble_lt (d : Digest) (i : Nat) : digestNibble d i < 16 := (d.extractLsb' (252 - 4 * i) 4).isLt

theorem renderDigest_eq_map (d : Digest) :
    renderDigest d = (List.range 64).map fun i => hexDigits.getD (digestNibble d i) '0' := rfl

/-- The first `k` digits, read in base 16, are the top `4 k` bits of the port. -/
theorem foldl_digestNibble (d : Digest) {k : Nat} (hk : k ≤ 64) :
    (List.range k).foldl (fun n i => 16 * n + digestNibble d i) 0 = d.toNat / 2 ^ (256 - 4 * k) := by
  induction k with
  | zero => exact (Nat.div_eq_of_lt d.isLt).symm
  | succ k ih =>
    have hshift : 256 - 4 * k = (252 - 4 * k) + 4 := by omega
    have hnext : 256 - 4 * (k + 1) = 252 - 4 * k := by omega
    rw [List.range_succ, List.foldl_append, List.foldl_cons, List.foldl_nil, ih (by omega), digestNibble,
      BitVec.extractLsb'_toNat, Nat.shiftRight_eq_div_pow, hshift, hnext, Nat.pow_add, ← Nat.div_div_eq_div_mul]
    exact Nat.div_add_mod _ 16

/-- Settles O41: the digits are those of the port's 64 groups of four bits, which spell its value. -/
theorem renderingIsFixedWidthHex : Obligations.RenderingIsFixedWidthHex := by
  intro d
  refine ⟨renderDigest_length d, fun c hc => ?_, ?_⟩
  · obtain ⟨i, -, rfl⟩ := List.mem_map.mp hc
    exact hexDigits_getD_mem _ (digestNibble_lt d i)
  · simp only [renderDigest_eq_map, List.foldl_map, hexDigits_idxOf_getD _ (digestNibble_lt d _)]
    exact (foldl_digestNibble d (Nat.le_refl 64)).trans (Nat.div_one _)

end Sys2Proof.Machine
end

section
/-! The history of a run and the registers: while a computation is tracked, `H` is the fold of the blocks accepted,
but for the one in progress, and what is noted as sampled is what the host holds (44 R180, R184; log 18). -/

namespace Sys2Proof.Machine

/-- The registers of a computation that has had these blocks accepted since it began: in IDLE all of them are folded
into `H`; while the last one is in progress, all but that one are, and its rounds are under way. -/
inductive HoldsFold : Regs → List Block → Prop
  | idle {r : Regs} {blks : List Block} (hp : r.phase = .idle) (hh : r.h = hashBlocks iv blks)
      (hdv : r.dv = !blks.isEmpty) : HoldsFold r blks
  | busy {r : Regs} {done : List Block} {blk : Block} {n : Nat} {w : Schedule} (hn : n ≤ 64)
      (hw : AgreeUpTo w blk (max 16 n)) (hh : r.h = hashBlocks iv done) :
      HoldsFold (midRegs r blk n w) (done ++ [blk])

theorem midRegs_phase_ne_idle (r : Regs) (blk : Block) (n : Nat) (w : Schedule) :
    (midRegs r blk n w).phase ≠ .idle := (Regs.ready_eq_false _).mp (midRegs_ready r blk n w)

/-- The rounds of a block in ROUND are not all done, and in UPDATE they are. -/
theorem midRegs_phase_round_iff (r : Regs) (blk : Block) (n : Nat) (w : Schedule) :
    (midRegs r blk n w).phase = .round ↔ n ≠ 64 := by
  rw [midRegs]
  split <;> simp [*]

theorem midRegs_phase_update_iff (r : Regs) (blk : Block) (n : Nat) (w : Schedule) :
    (midRegs r blk n w).phase = .update ↔ n = 64 := by
  rw [midRegs]
  split <;> simp [*]

section
variable {r : Regs} {blks : List Block}

/-- What is known of `H` and `dv` in IDLE. -/
theorem HoldsFold.of_idle (h : HoldsFold r blks) (hp : r.phase = .idle) :
    r.h = hashBlocks iv blks ∧ r.dv = !blks.isEmpty := by
  cases h with
  | idle _ hh hdv => exact ⟨hh, hdv⟩
  | busy _ _ _ => exact absurd hp (midRegs_phase_ne_idle _ _ _ _)

/-- RESET and INIT begin with no block. -/
theorem holdsFold_nil (hp : r.phase = .idle) (hh : r.h = iv) (hdv : r.dv = false) : HoldsFold r [] :=
  .idle hp hh hdv

/-- The whole command BLOCK folds its block (44 R172). -/
theorem HoldsFold.blockRegs (h : HoldsFold r blks) (hp : r.phase = .idle) (blk : Block) :
    HoldsFold (blockRegs blk r) (blks ++ [blk]) := by
  refine .idle (blockRegs_phase blk r) ?_ ?_
  · rw [blockRegs_h, (h.of_idle hp).1, hashBlocks_concat]
  · rw [blockRegs_dv]
    simp

/-- LOAD puts its block in progress (43 R153). -/
theorem HoldsFold.loadRegs (h : HoldsFold r blks) (hp : r.phase = .idle) (blk : Block) :
    HoldsFold (loadRegs blk r) (blks ++ [blk]) := by
  rw [loadRegs_eq_mid]
  exact .busy (Nat.zero_le 64) (agreeUpTo_load blk r.w) (h.of_idle hp).1

/-- ROUND carries the block in progress on (43 R155). -/
theorem HoldsFold.roundRegs (h : HoldsFold r blks) (hp : r.phase = .round) : HoldsFold (roundRegs r) blks := by
  cases h with
  | idle hidle _ _ => rw [hidle] at hp; cases hp
  | @busy r done blk n w hn hw hh =>
    have hlt : n < 64 := Nat.lt_of_le_of_ne hn ((midRegs_phase_round_iff r blk n w).mp hp)
    have hagree := roundW_agree (w := w) (blk := blk) (t := BitVec.ofNat 6 n)
    rw [toNat_ofNat_counter hlt] at hagree
    rw [roundRegs_mid hlt hw]
    exact .busy hlt (hagree hw) hh

/-- UPDATE folds the block in progress into `H` (43 R158, R160). -/
theorem HoldsFold.updateRegs (h : HoldsFold r blks) (hp : r.phase = .update) : HoldsFold (updateRegs r) blks := by
  cases h with
  | idle hidle _ _ => rw [hidle] at hp; cases hp
  | @busy r done blk n w hn hw hh =>
    obtain rfl := (midRegs_phase_update_iff r blk n w).mp hp
    obtain rfl : w = sched blk := eq_of_agree hw
    rw [updateRegs_mid]
    refine .idle (blockRegs_phase blk r) ?_ ?_
    · rw [blockRegs_h, hh, hashBlocks_concat]
    · rw [blockRegs_dv]
      simp

/-- The reserved opcode writes neither `H` nor `dv` (44 R173). -/
theorem HoldsFold.raiseIllegalCommand (h : HoldsFold r blks) (hp : r.phase = .idle) :
    HoldsFold (raiseIllegalCommand r) blks :=
  .idle hp (h.of_idle hp).1 (h.of_idle hp).2

end

/-- What the tracked history says of a state: nothing where no computation is spoken of. -/
def Tracked (s : State) (c : Option HashRun) : Prop :=
  ∀ hist ∈ c, HoldsFold s.regs hist.accepted ∧ ∀ d ∈ hist.sampled, s.sampled = some d

theorem tracked_none (s : State) : Tracked s none := nofun

/-- A computation just begun, or with one more block accepted, has nothing sampled. -/
theorem tracked_unsampled {s : State} {blks : List Block} (h : HoldsFold s.regs blks) :
    Tracked s (some ⟨blks, none⟩) := by
  rintro hist ⟨⟩
  exact ⟨h, nofun⟩

/-- One more block accepted. -/
theorem Tracked.accept {s t : State} {c : Option HashRun} (h : Tracked s c) {b : Block}
    (hregs : ∀ blks, HoldsFold s.regs blks → HoldsFold t.regs (blks ++ [b])) : Tracked t (c.map (·.accept b)) := by
  cases c with
  | none => exact tracked_none t
  | some hist => exact tracked_unsampled (hregs _ (h hist rfl).1)

/-- Registers moved on with nothing accepted and nothing sampled. -/
theorem Tracked.advance {s t : State} {c : Option HashRun} (h : Tracked s c) (hsampled : t.sampled = s.sampled)
    (hregs : ∀ blks, HoldsFold s.regs blks → HoldsFold t.regs blks) : Tracked t c := by
  intro hist hhist
  obtain ⟨hfold, hsample⟩ := h hist hhist
  exact ⟨hregs _ hfold, by rw [hsampled]; exact hsample⟩

/-- DIGEST notes what it samples. -/
theorem Tracked.sample {s : State} {c : Option HashRun} (h : Tracked s c) (rest : List Drive) :
    Tracked ((s.setTodo rest).setSampled s.regs.digest) (c.map (·.sample s.regs.digest)) := by
  intro hist hhist
  obtain ⟨hist, hc, rfl⟩ := Option.map_eq_some_iff.mp hhist
  exact ⟨(h hist hc).1, fun d hd => hd⟩

section
variable {s : State} {p : Phase} {f : Regs → Regs} {c : Option HashRun}

/-- A guarded rule that the history follows: it makes of both what `hfired` says, or of both nothing. -/
theorem Tracked.fire_of {c' : Option HashRun} (h : Tracked s c)
    (hfired : s.regs.phase = p → Tracked (s.setRegs (f s.regs)) c') :
    Tracked (s.fire p f) (if s.regs.phase = p then c' else c) := by
  by_cases hp : s.regs.phase = p
  · rw [State.fire_of_phase hp, if_pos hp]
    exact hfired hp
  · rw [State.fire_of_ne hp, if_neg hp]
    exact h

/-- A guarded rule that is nothing in the history and keeps the fold. -/
theorem Tracked.fire (h : Tracked s c)
    (hfold : s.regs.phase = p → ∀ blks, HoldsFold s.regs blks → HoldsFold (f s.regs) blks) :
    Tracked (s.fire p f) c := by
  rw [← ite_self (c := s.regs.phase = p) c]
  exact h.fire_of fun hp => h.advance (t := s.setRegs (f s.regs)) rfl (hfold hp)

end

/-- A FUNC row is nothing in the history. -/
theorem trackOperation_func {i : Instr} (hf : i.format = .func) (r : Regs) (c : Option HashRun) :
    trackOperation r i c = c := by
  cases i with
  | nop | init | block | rsvd | hold | load | round | update | reset => cases hf
  | add32 | xor | and | not | rotr | shr | lsigma0 | lsigma1 | usigma0 | usigma1 | ch | maj | sched | t1 | t2
  | roundfn | compress | hashblocks | pad | computeDigest => rfl

/-- Every operation keeps the history and the registers in step. -/
theorem tracked_exec {i : Instr} {s t : State} {c : Option HashRun} (hx : exec i s = .next t) (h : Tracked s c) :
    Tracked t (trackOperation s.regs i c) := by
  cases i with
  | nop | hold => cases hx; exact h
  | reset => cases hx; exact tracked_unsampled (holdsFold_nil rfl rfl rfl)
  | init => cases hx; exact h.fire_of fun hp => tracked_unsampled (holdsFold_nil hp rfl rfl)
  | block blk => cases hx; exact h.fire_of fun hp => h.accept fun _ hf => hf.blockRegs hp blk
  | load blk => cases hx; exact h.fire_of fun hp => h.accept fun _ hf => hf.loadRegs hp blk
  | rsvd => cases hx; exact h.fire fun hp _ hf => hf.raiseIllegalCommand hp
  | round => cases hx; exact h.fire fun hp _ hf => hf.roundRegs hp
  | update => cases hx; exact h.fire fun hp _ hf => hf.updateRegs hp
  | add32 | xor | and | not | rotr | shr | lsigma0 | lsigma1 | usigma0 | usigma1 | ch | maj | sched | t1 | t2
  | roundfn | compress | hashblocks | pad | computeDigest =>
    obtain ⟨-, -, -, hsampled⟩ := exec_next hx
    rw [trackOperation_func rfl]
    exact h.advance hsampled fun _ hf => by rwa [exec_func_regs hx rfl]

/-- Where the host acts alone, it samples the port for DIGEST, or keeps what it has sampled. -/
theorem fetch_host_sampled {s t : State} (hf : fetch s = .host (.next t)) :
    (∃ rest, s.todo = .digest :: rest ∧ t = (s.setTodo rest).setSampled s.regs.digest) ∨
      (∀ rest, s.todo ≠ .digest :: rest) ∧ t.sampled = s.sampled := by
  cases htodo : s.todo with
  | nil => rw [fetch_nil htodo] at hf; cases hf
  | cons item rest =>
    cases item with
    | digest => exact .inl ⟨rest, rfl, hostIf_next ((fetch_digest htodo).symm.trans hf) nofun⟩
    | framerInit => rw [fetch_framerInit htodo] at hf; cases hf; exact .inr ⟨nofun, rfl⟩
    | framerUpdate | framerFinalize | expect | hash | wait =>
      simp only [fetch, htodo] at hf
      rw [hostIf_next hf nofun]
      exact .inr ⟨nofun, rfl⟩
    | idle n =>
      cases n with
      | zero => rw [fetch_idle_zero htodo] at hf; cases hf; exact .inr ⟨nofun, rfl⟩
      | succ n => rw [fetch_idle_succ htodo] at hf; cases hf
    | offer | command =>
      simp only [fetch, htodo] at hf
      split at hf <;> cases hf
    | reset | edge | apply =>
      simp only [fetch, htodo] at hf
      cases hf

/-- Every step keeps the history and the registers in step. -/
theorem tracked_step {s t : State} {c : Option HashRun} (hx : step s = .next t) (h : Tracked s c) :
    Tracked t (trackStep s c) := by
  cases hf : fetch s with
  | word cw rest =>
    obtain ⟨i, hi⟩ := fetch_word_decodes hf
    rw [step_of_word hf hi] at hx
    rw [trackStep_of_word hf hi]
    exact tracked_exec (s := s.setTodo rest) hx h
  | direct i rest =>
    rw [step_of_direct hf] at hx
    simp only [trackStep, hf]
    split
    · next hfunc =>
      rw [← trackOperation_func hfunc s.regs c]
      exact tracked_exec (s := s.setTodo rest) hx h
    · exact tracked_none t
  | host o =>
    obtain rfl : o = .next t := (step_of_host hf).symm.trans hx
    rcases fetch_host_sampled hf with ⟨rest, htodo, rfl⟩ | ⟨hn, hsampled⟩
    · simp only [trackStep, hf, htodo]
      exact h.sample rest
    · rw [trackStep_of_host hf hn]
      exact h.advance hsampled fun _ hfold => by rwa [(fetch_host_next hf).1]

/-- So does every run. -/
theorem tracked_run {n : Nat} {s t : State} {c : Option HashRun} (hx : run n s = .next t) (h : Tracked s c) :
    Tracked t (trackRun n s c) := by
  induction n generalizing s c with
  | zero => cases hx; exact h
  | succ n ih =>
    obtain ⟨u, hu, hrun⟩ := run_succ_next hx
    rw [trackRun_succ hu]
    exact ih hrun (tracked_step hu h)

/-- A run that ends in IDLE with a computation tracked ends with its blocks folded, whatever state it began in. -/
theorem folded_of_trackRun {n : Nat} {s t : State} {blks : List Block} {d : Option Digest}
    (hx : run n s = .next t) (htrack : trackRun n s none = some ⟨blks, d⟩) (hp : t.regs.phase = .idle) :
    t.regs.h = hashBlocks iv blks ∧ t.regs.dv = !blks.isEmpty :=
  (tracked_run hx (tracked_none s) _ htrack).1.of_idle hp

/-- Settles O60: the history of the run and the registers stay in step, so at its end `H` is the fold over `pad(M)`,
and the digest noted as sampled, which is the port's, is the host's. -/
theorem runOverHoldsTheDigest : Obligations.RunOverHoldsTheDigest := by
  rintro m n s t ⟨hrun, -, htrack, ⟨hready, -⟩, -⟩
  have hh : t.regs.h = computeDigest m := (folded_of_trackRun hrun htrack ((Regs.ready_eq_true _).mp hready)).1
  have hport : t.regs.digest = digestOf (computeDigest m) := by rw [Regs.digest, hh]
  have hsampled : t.sampled = some t.regs.digest := (tracked_run hrun (tracked_none s) _ htrack).2 _ rfl
  exact ⟨hh, hport ▸ hsampled, hport⟩

end Sys2Proof.Machine
end

section
/-! The host waiting for the core: an edge with no command, and how many of them end the block in progress (30 R89,
70 R222). -/

namespace Sys2Proof.Machine

/-- What an edge with no command does to the registers: in IDLE nothing, else the sequencer's next operation
(30 R87). -/
def idleEdgeRegs (r : Regs) : Regs :=
  match r.phase with
  | .idle => r
  | .round => roundRegs r
  | .update => updateRegs r

/-- The edges until the block in progress is folded back: the rounds left and UPDATE; none in IDLE. -/
def edgesLeft (r : Regs) : Nat :=
  match r.phase with
  | .idle => 0
  | .round => 65 - r.t.toNat
  | .update => 1

theorem edgesLeft_of_idle {r : Regs} (hp : r.phase = .idle) : edgesLeft r = 0 := by rw [edgesLeft, hp]

theorem edgesLeft_of_round {r : Regs} (hp : r.phase = .round) : edgesLeft r = 65 - r.t.toNat := by
  rw [edgesLeft, hp]

theorem edgesLeft_of_update {r : Regs} (hp : r.phase = .update) : edgesLeft r = 1 := by rw [edgesLeft, hp]

/-- LOAD leaves 65 edges of its BLOCK's 66 (00 R8). -/
theorem edgesLeft_loadRegs (blk : Block) (r : Regs) : edgesLeft (loadRegs blk r) = 65 := edgesLeft_of_round rfl

/-- The core is idle exactly when no edge is left. -/
theorem edgesLeft_eq_zero {r : Regs} : edgesLeft r = 0 ↔ r.phase = .idle := by
  refine ⟨fun h => ?_, edgesLeft_of_idle⟩
  cases hp : r.phase with
  | idle => rfl
  | round =>
    have ht : r.t.toNat < 64 := r.t.isLt
    rw [edgesLeft_of_round hp] at h
    omega
  | update => rw [edgesLeft_of_update hp] at h; cases h

/-- Each edge with no command takes one of the edges left. -/
theorem edgesLeft_idleEdgeRegs (r : Regs) : edgesLeft (idleEdgeRegs r) = edgesLeft r - 1 := by
  cases hp : r.phase with
  | idle => simp only [idleEdgeRegs, hp, edgesLeft_of_idle hp]
  | update => simp only [idleEdgeRegs, hp, edgesLeft_of_update hp, edgesLeft_of_idle (updateRegs_phase r)]
  | round =>
    have ht : r.t.toNat < 64 := r.t.isLt
    simp only [idleEdgeRegs, hp, edgesLeft_of_round hp]
    by_cases hlast : r.t.toNat = 63
    · rw [edgesLeft_of_update (roundRegs_sequencer_of_last hlast).1]
      omega
    · obtain ⟨hphase, hcount⟩ := roundRegs_sequencer_of_lt hp (by omega)
      rw [edgesLeft_of_round hphase, hcount]
      omega

/-- An edge with no command raises and clears no fault (60 R191). -/
theorem idleEdgeRegs_err (r : Regs) : (idleEdgeRegs r).err = r.err := by
  rw [idleEdgeRegs]
  split <;> rfl

/-- What the phase selects with no command offered does that to the registers. -/
theorem exec_unofferedOperation_idleEdge (s : State) :
    exec (unofferedOperation false s.regs.phase) s = .next (s.setRegs (idleEdgeRegs s.regs)) := by
  cases hp : s.regs.phase with
  | idle => simp only [idleEdgeRegs, hp]; rfl
  | round => simp only [idleEdgeRegs, hp]; exact exec_round_of_round hp
  | update => simp only [idleEdgeRegs, hp]; exact exec_update_of_update hp

/-- `n` steps lead from `s` to `t`, and what is tracked of the computation from `c` to `c'`. -/
def LeadsIn (n : Nat) (s : State) (c : Option HashRun) (t : State) (c' : Option HashRun) : Prop :=
  run n s = .next t ∧ trackRun n s c = c'

theorem LeadsIn.refl (s : State) (c : Option HashRun) : LeadsIn 0 s c s c := ⟨rfl, rfl⟩

theorem LeadsIn.trans {m n : Nat} {s t u : State} {c c' c'' : Option HashRun} (h : LeadsIn m s c t c')
    (h' : LeadsIn n t c' u c'') : LeadsIn (m + n) s c u c'' :=
  ⟨(run_add h.1 n).trans h'.1, by rw [trackRun_add h.1, h.2, h'.2]⟩

theorem LeadsIn.of_step {s t : State} {c c' : Option HashRun} (h : step s = .next t) (hc : trackStep s c = c') :
    LeadsIn 1 s c t c' :=
  ⟨(run_one s).trans h, (trackRun_succ h 0 c).trans hc⟩

section
variable {s : State} {c : Option HashRun} {rest : List Drive}

/-- A host item that drives an edge with no command. -/
theorem leadsIn_idle_edge (hf : fetch s = fetchEdge s idlePins rest) :
    LeadsIn 1 s c ((s.setTodo rest).setRegs (idleEdgeRegs s.regs)) c := by
  have hd := decode_edgeWord_of_not_accepts (not_accepts_of_no_command (p := idlePins) rfl s.regs)
  refine .of_step ((step_of_edge hf hd).trans (exec_unofferedOperation_idleEdge (s.setTodo rest))) ?_
  rw [trackStep_of_edge hf hd]
  cases s.regs.phase <;> rfl

/-- A host item that ends without an edge, other than DIGEST. -/
theorem leadsIn_host {t : State} (hf : fetch s = .host (.next t)) (hn : ∀ rest, s.todo ≠ .digest :: rest) :
    LeadsIn 1 s c t c :=
  .of_step (step_of_host hf) (trackStep_of_host hf hn c)

/-- A command accepted at an edge in IDLE. -/
theorem leadsIn_offer {op : BitVec 2} {blk : Block} {t : State} (h : s.todo = .offer op blk :: rest)
    (hp : s.regs.phase = .idle) (hx : exec (decodeOffer op blk) (s.setTodo rest) = .next t) :
    LeadsIn 1 s c t (trackOperation s.regs (decodeOffer op blk) c) := by
  have hf := fetch_offer_ready h ((Regs.ready_eq_true _).mpr hp)
  have hd : decode (edgeWord s.regs.phase (offerPins op blk)) = .ok (decodeOffer op blk) := by
    rw [hp]
    exact decode_edgeWord .idle rfl
  exact .of_step ((step_of_edge hf hd).trans hx) (trackStep_of_edge hf hd c)

/-- The items that wait with idle edges while the core is busy (30 R89). -/
def WaitsForReady (d : Drive) : Prop := d = .wait ∨ ∃ op blk, d = .offer op blk

theorem fetch_waiting {d : Drive} (hd : WaitsForReady d) (h : s.todo = d :: rest) (hr : s.regs.ready = false) :
    fetch s = fetchEdge s idlePins s.todo := by
  rcases hd with rfl | ⟨op, blk, rfl⟩
  · exact fetch_wait_busy h hr
  · exact fetch_offer_busy h hr

/-- Such an item waits until the block in progress is folded back. -/
theorem leadsIn_ready {d : Drive} (hd : WaitsForReady d) (h : s.todo = d :: rest) :
    ∃ r, LeadsIn (edgesLeft s.regs) s c (s.setRegs r) c ∧ r.phase = .idle ∧ r.err = s.regs.err := by
  generalize hk : edgesLeft s.regs = k
  induction k generalizing s with
  | zero => exact ⟨s.regs, .refl s c, edgesLeft_eq_zero.mp hk, rfl⟩
  | succ k ih =>
    have hbusy : s.regs.phase ≠ .idle := fun hp => by rw [edgesLeft_of_idle hp] at hk; cases hk
    have hstep := leadsIn_idle_edge (c := c) (fetch_waiting hd h ((Regs.ready_eq_false _).mpr hbusy))
    have hleft : edgesLeft (idleEdgeRegs s.regs) = k := by rw [edgesLeft_idleEdgeRegs, hk, Nat.add_sub_cancel]
    obtain ⟨r, hlead, hp, herr⟩ := ih (s := s.setRegs (idleEdgeRegs s.regs)) h hleft
    exact ⟨r, Nat.add_comm 1 k ▸ hstep.trans hlead, hp, herr.trans (idleEdgeRegs_err s.regs)⟩

/-! The items of a command sequence, from any state: each ends with the host's list advanced and `err` as it was. -/

theorem leadsIn_wait (h : s.todo = .wait :: rest) :
    ∃ r, LeadsIn (edgesLeft s.regs + 1) s c ((s.setTodo rest).setRegs r) c ∧ r.phase = .idle ∧
      r.err = s.regs.err := by
  obtain ⟨r, hlead, hp, herr⟩ := leadsIn_ready (c := c) (.inl rfl) h
  have htodo : (s.setRegs r).todo = .wait :: rest := h
  have hend := leadsIn_host (c := c) (fetch_wait_ready htodo ((Regs.ready_eq_true _).mpr hp)) (by rw [htodo]; nofun)
  exact ⟨r, hlead.trans hend, hp, herr⟩

theorem leadsIn_idle {n : Nat} (h : s.todo = .idle n :: rest) :
    ∃ r, LeadsIn (n + 1) s c ((s.setTodo rest).setRegs r) c ∧ r.err = s.regs.err := by
  induction n generalizing s with
  | zero => exact ⟨s.regs, leadsIn_host (fetch_idle_zero h) (by rw [h]; nofun), rfl⟩
  | succ n ih =>
    have hedge := leadsIn_idle_edge (c := c) (fetch_idle_succ h)
    obtain ⟨r, hlead, herr⟩ := ih (s := (s.setTodo (.idle n :: rest)).setRegs (idleEdgeRegs s.regs)) rfl
    exact ⟨r, Nat.add_comm 1 (n + 1) ▸ hedge.trans hlead, herr.trans (idleEdgeRegs_err s.regs)⟩

theorem leadsIn_nop {blk : Block} (h : s.todo = .offer 0b00 blk :: rest) :
    ∃ r, LeadsIn (edgesLeft s.regs + 1) s c ((s.setTodo rest).setRegs r) c ∧ r.err = s.regs.err := by
  obtain ⟨r, hlead, hp, herr⟩ := leadsIn_ready (c := c) (.inr ⟨_, _, rfl⟩) h
  exact ⟨r, hlead.trans (leadsIn_offer (s := s.setRegs r) h hp rfl), herr⟩

/-- A BLOCK is accepted as soon as the core is ready, and put in progress. -/
theorem leadsIn_block {blk : Block} (h : s.todo = .offer 0b10 blk :: rest) :
    ∃ r, LeadsIn (edgesLeft s.regs + 1) s c ((s.setTodo rest).setRegs (loadRegs blk r)) (c.map (·.accept blk)) ∧
      r.err = s.regs.err := by
  obtain ⟨r, hlead, hp, herr⟩ := leadsIn_ready (c := c) (.inr ⟨_, _, rfl⟩) h
  have hload := leadsIn_offer (s := s.setRegs r) (c := c) h hp
    (exec_load_of_idle (s := (s.setRegs r).setTodo rest) hp blk)
  have htrack : trackOperation r (.load blk) c = c.map (·.accept blk) := if_pos hp
  exact ⟨r, htrack ▸ hlead.trans hload, herr⟩

/-- INIT in IDLE begins a computation (44 R171). -/
theorem leadsIn_init {blk : Block} (h : s.todo = .offer 0b01 blk :: rest) (hp : s.regs.phase = .idle) :
    LeadsIn 1 s c ((s.setTodo rest).setRegs (initRegs s.regs)) (some .start) := by
  have hinit := leadsIn_offer (c := c) h hp (exec_init_of_idle (s := s.setTodo rest) hp)
  have htrack : trackOperation s.regs .init c = some .start := if_pos hp
  exact htrack ▸ hinit

/-- So does RESET, in any phase (70 R210). -/
theorem leadsIn_reset (h : s.todo = .reset :: rest) :
    LeadsIn 1 s c ((s.setTodo rest).setRegs (resetRegs s.regs)) (some .start) := by
  have hd := decode_edgeWord_reset s.regs.phase (p := resetPins) rfl
  exact .of_step (step_of_edge (fetch_reset h) hd) (trackStep_of_edge (fetch_reset h) hd c)

end

end Sys2Proof.Machine
end

section
/-! Command sequences and the script HASH; DIGEST (44 R180, R181, R184). -/

namespace Sys2Proof.Machine

/-- What may stand in a command sequence between its start and its last wait (44 R180). -/
def SequenceItem (d : Drive) : Prop :=
  d = .wait ∨ (∃ n, d = .idle n) ∨ (∃ b, d = .offer 0b00 b) ∨ ∃ b, d = .offer 0b10 b

/-- The block a host item offers, if it is a BLOCK. -/
def offeredBlock : Drive → Option Block
  | .offer op b => if op = 0b10 then some b else none
  | _ => none

theorem append_offeredBlock_of_none {d : Drive} (h : offeredBlock d = none) (blks : List Block) :
    blks ++ (offeredBlock d).toList = blks := by
  rw [h, Option.toList_none, List.append_nil]

section
variable {s : State} {rest : List Drive} {accepted : List Block}

/-- An item of a command sequence ends, in any state, with its block accepted if it has one. -/
theorem leadsIn_item {d : Drive} (hd : SequenceItem d) (h : s.todo = d :: rest) :
    ∃ n r, LeadsIn n s (some ⟨accepted, none⟩) ((s.setTodo rest).setRegs r)
      (some ⟨accepted ++ (offeredBlock d).toList, none⟩) ∧ r.err = s.regs.err := by
  rcases hd with rfl | ⟨k, rfl⟩ | ⟨b, rfl⟩ | ⟨b, rfl⟩
  · obtain ⟨r, hlead, -, herr⟩ := leadsIn_wait (c := some ⟨accepted, none⟩) h
    rw [append_offeredBlock_of_none rfl]
    exact ⟨_, r, hlead, herr⟩
  · rw [append_offeredBlock_of_none rfl]
    exact ⟨_, leadsIn_idle h⟩
  · rw [append_offeredBlock_of_none rfl]
    exact ⟨_, leadsIn_nop h⟩
  · obtain ⟨r, hlead, herr⟩ := leadsIn_block (c := some ⟨accepted, none⟩) h
    exact ⟨_, _, hlead, herr⟩

/-- The items of a command sequence end with exactly their blocks accepted, in order. -/
theorem leadsIn_items {items : List Drive} (hitems : ∀ d ∈ items, SequenceItem d) (h : s.todo = items ++ rest) :
    ∃ n r, LeadsIn n s (some ⟨accepted, none⟩) ((s.setTodo rest).setRegs r)
      (some ⟨accepted ++ items.filterMap offeredBlock, none⟩) ∧ r.err = s.regs.err := by
  induction items generalizing s accepted with
  | nil =>
    refine ⟨0, s.regs, ?_, rfl⟩
    rw [← show s.todo = rest from h, State.setTodo_self, State.setRegs_self, List.filterMap_nil, List.append_nil]
    exact .refl _ _
  | cons d items ih =>
    obtain ⟨m, r, hfirst, herr⟩ := leadsIn_item (accepted := accepted) (hitems d List.mem_cons_self) h
    obtain ⟨n, r', hrest, herr'⟩ := ih (s := (s.setTodo (items ++ rest)).setRegs r)
      (accepted := accepted ++ (offeredBlock d).toList) (fun d' hd' => hitems d' (List.mem_cons_of_mem d hd')) rfl
    have hblocks : accepted ++ (d :: items).filterMap offeredBlock =
        accepted ++ (offeredBlock d).toList ++ items.filterMap offeredBlock := by
      rw [List.append_assoc, List.filterMap_cons]
      cases offeredBlock d <;> rfl
    exact ⟨m + n, r', hblocks ▸ hfirst.trans hrest, herr'.trans herr⟩

/-- The blocks of a message offered one after another, and a wait: 66 edges for each block, after those the block in
progress still takes (70 R222). -/
theorem leadsIn_blocks {blks : List Block} (h : s.todo = deliverBlocks blks ++ .wait :: rest) :
    ∃ r, LeadsIn (edgesLeft s.regs + 66 * blks.length + 1) s (some ⟨accepted, none⟩) ((s.setTodo rest).setRegs r)
      (some ⟨accepted ++ blks, none⟩) ∧ r.phase = .idle ∧ r.err = s.regs.err := by
  induction blks generalizing s accepted with
  | nil =>
    rw [List.append_nil]
    exact leadsIn_wait h
  | cons b blks ih =>
    obtain ⟨r, hfirst, herr⟩ := leadsIn_block (c := some ⟨accepted, none⟩) h
    obtain ⟨r', hrest, hp, herr'⟩ := ih
      (s := (s.setTodo (deliverBlocks blks ++ .wait :: rest)).setRegs (loadRegs b r)) (accepted := accepted ++ [b]) rfl
    have hcount : edgesLeft s.regs + 66 * (b :: blks).length + 1 =
        edgesLeft s.regs + 1 + (edgesLeft (loadRegs b r) + 66 * blks.length + 1) := by
      rw [edgesLeft_loadRegs, List.length_cons]
      omega
    refine ⟨r', ?_, hp, herr'.trans herr⟩
    rw [hcount, List.append_cons]
    exact hfirst.trans hrest

end

/-- INIT where no fault is recorded, and RESET, begin a computation in one edge (44 R180, 60 R193). -/
theorem leadsIn_start {s : State} {start : Drive} {rest : List Drive} {blk : Block} (hp : s.regs.phase = .idle)
    (hstart : start = .offer 0b01 blk ∧ Faultless s ∨ start = .reset) (h : s.todo = start :: rest) :
    ∃ r, LeadsIn 1 s none ((s.setTodo rest).setRegs r) (some .start) ∧ r.err = false := by
  rcases hstart with ⟨rfl, hf⟩ | rfl
  · exact ⟨_, leadsIn_init h hp, hf⟩
  · exact ⟨_, leadsIn_reset h, rfl⟩

/-- Settles O58: start, items and last wait one after another; the history then says which blocks were accepted, and
the registers are in step with it. -/
theorem commandSequenceFoldsItsBlocks : Obligations.CommandSequenceFoldsItsBlocks := by
  intro s start items rest blk hp hstart hitems htodo blocks
  have hblocks : blocks = items.filterMap offeredBlock := rfl
  obtain ⟨r₁, hlead₁, herr₁⟩ := leadsIn_start hp hstart htodo
  obtain ⟨n, r₂, hlead₂, herr₂⟩ := leadsIn_items (s := (s.setTodo (items ++ .wait :: rest)).setRegs r₁)
    (accepted := []) hitems rfl
  obtain ⟨r₃, hlead₃, hp₃, herr₃⟩ := leadsIn_wait (s := (s.setTodo (.wait :: rest)).setRegs r₂)
    (c := some ⟨items.filterMap offeredBlock, none⟩) rfl
  obtain ⟨hrun, htrack⟩ := (hlead₁.trans hlead₂).trans hlead₃
  obtain ⟨hh, hdv⟩ := folded_of_trackRun hrun htrack hp₃
  rw [hblocks]
  exact ⟨_, _, hrun, rfl, (Regs.ready_eq_true _).mpr hp₃, hh, hdv, (herr₃.trans herr₂).trans herr₁, htrack⟩

/-- Every padded message has a block (41 R122). -/
theorem pad_isEmpty (m : List Byte) : (pad m).isEmpty = false := by
  rw [← Bool.not_eq_true, List.isEmpty_iff_length_eq_zero, pad_length, blockCount]
  omega

/-- HASH in an idle state ends in `1 + 66 N` edges and two steps without an edge, with the blocks of `pad(M)`
accepted (30 R90, 70 R222). -/
theorem leadsIn_hash {s : State} {m : List Byte} {rest : List Drive} (hp : s.regs.phase = .idle)
    (hlen : m.length < 2 ^ 61) (h : s.todo = .hash m :: rest) :
    ∃ r, LeadsIn (1 + (1 + 66 * ((m.length + 72) / 64)) + 1) s none ((s.setTodo rest).setRegs r)
      (some ⟨pad m, none⟩) ∧ r.phase = .idle ∧ r.err = s.regs.err := by
  have hexpand := leadsIn_host (c := none) ((fetch_hash h).trans (if_pos hlen)) (by rw [h]; nofun)
  have hscript : hashScript m ++ rest = .offer 0b01 0 :: (deliverBlocks (pad m) ++ .wait :: rest) := by
    rw [hashScript, List.cons_append, List.append_assoc]
    rfl
  rw [hscript] at hexpand
  have hinit := leadsIn_init (s := s.setTodo (.offer 0b01 0 :: (deliverBlocks (pad m) ++ .wait :: rest))) (c := none)
    rfl hp
  obtain ⟨r, hblocks, hidle, herr⟩ := leadsIn_blocks (accepted := [])
    (s := (s.setTodo (deliverBlocks (pad m) ++ .wait :: rest)).setRegs (initRegs s.regs)) rfl
  have hcount : 1 + (1 + 66 * ((m.length + 72) / 64)) + 1 =
      1 + 1 + (edgesLeft (initRegs s.regs) + 66 * (pad m).length + 1) := by
    rw [edgesLeft_of_idle (r := initRegs s.regs) hp, pad_length, blockCount]
    omega
  exact ⟨r, hcount ▸ (hexpand.trans hinit).trans hblocks, hidle, herr⟩

/-- Settles O57: after HASH the history holds the blocks of `pad(M)`, with which the registers are in step; DIGEST
samples the port and the computation is over. -/
theorem hashScriptComputesDigest : Obligations.HashScriptComputesDigest := by
  intro s m rest hfaultless hp hlen htodo
  obtain ⟨r, hlead, hidle, herr⟩ := leadsIn_hash hp hlen htodo
  obtain ⟨hh, hdv⟩ := folded_of_trackRun hlead.1 hlead.2 hidle
  rw [pad_isEmpty] at hdv
  have hready : DigestReady ((s.setTodo rest).setRegs r) := ⟨(Regs.ready_eq_true _).mpr hidle, hdv⟩
  have hclear : r.err = false := herr.trans hfaultless
  refine ⟨_, hlead.1, hh, hready, hclear, rfl, rfl, rfl, rfl, ?_⟩
  rintro rest' rfl
  have hdigest := step_digest_sample (s := (s.setTodo (.digest :: rest')).setRegs r) rfl hready
  have hover := hlead.trans (.of_step hdigest (trackStep_of_digest rfl hready.1 hready.2 _))
  refine ⟨_, hdigest, ?_, rfl, rfl, hover.1, hlen, hover.2, hready, hclear⟩
  rw [State.setSampled_sampled, Regs.digest, hh]
  rfl

end Sys2Proof.Machine
end

section
/-! The step as the decoded operation: where a word or a row stands before the core, and at an edge by the spec's
priority (60 R196, 30 R87). -/

namespace Sys2Proof.Machine

/-- Settles O6: both ways in which the host's next action comes to an operation. -/
theorem stepRunsTheDecodedInstruction : Obligations.StepRunsTheDecodedInstruction :=
  ⟨fun _ _ _ _ hf hd => step_of_word hf hd, fun _ _ _ hf => step_of_direct hf⟩

/-- Settles O8: an edge runs what its word decodes to, which O3 names by `rst`, the phase and the offer. -/
theorem edgePerformsOneOperationByPriority : Obligations.EdgePerformsOneOperationByPriority := by
  intro s p rest h
  have run : ∀ {i}, decode (edgeWord s.regs.phase p) = .ok i → step s = exec i (s.setTodo rest) :=
    step_of_edge (fetch_edge h)
  obtain ⟨hreset, hround, hupdate, hhold, hoffer⟩ := edgeSelectsByPhaseAndOffer s.regs.phase p
  refine ⟨fun hr => run (hreset hr), fun hr hp => run (hround hr hp), fun hr hp => run (hupdate hr hp),
    fun hr hp => ⟨fun hv => run (hhold hr hp hv), fun hv => ?_, fun hv => ?_, fun hv => ?_, fun hv => ?_⟩⟩
  all_goals obtain ⟨hnop, hinit, hload, hrsvd⟩ := hoffer hr hp hv
  · exact fun hop => run (hnop hop)
  · exact fun hop => run (hinit hop)
  · exact fun hop => run (hload hop)
  · exact fun hop => run (hrsvd hop)

end Sys2Proof.Machine
end

section
/-! The fault flag: only RESET and RSVD change it (60 R191, R198). -/

namespace Sys2Proof.Machine

/-- A guarded rule that writes no `err` leaves it, whether or not it fires. -/
theorem State.fire_err {s : State} {p : Phase} {f : Regs → Regs} (hf : (f s.regs).err = s.regs.err) :
    (s.fire p f).regs.err = s.regs.err := by
  rcases s.fire_regs p f with ⟨-, e⟩ | ⟨-, e⟩
  · rw [e, hf]
  · rw [e]

/-- An operation that changes `err` is RESET, which clears it, or RSVD in IDLE, which sets it (60 R191). -/
theorem exec_changes_err {i : Instr} {s t : State} (h : exec i s = .next t) (hne : t.regs.err ≠ s.regs.err) :
    (i = .reset ∧ t.regs.err = false) ∨ (i = .rsvd ∧ s.regs.phase = .idle ∧ t.regs.err = true) := by
  cases i with
  | reset => cases h; exact .inl ⟨rfl, rfl⟩
  | rsvd =>
    cases h
    rcases s.fire_regs .idle raiseIllegalCommand with ⟨hp, e⟩ | ⟨-, e⟩
    · exact .inr ⟨rfl, hp, congrArg Regs.err e⟩
    · exact absurd (congrArg Regs.err e) hne
  | nop | hold => cases h; exact absurd rfl hne
  | init => cases h; exact absurd (State.fire_err (initRegs_err _)) hne
  | block blk => cases h; exact absurd (State.fire_err (blockRegs_err blk _)) hne
  | load blk => cases h; exact absurd (State.fire_err (loadRegs_err blk _)) hne
  | round => cases h; exact absurd (State.fire_err (roundRegs_err _)) hne
  | update => cases h; exact absurd (State.fire_err (updateRegs_err _)) hne
  | add32 | xor | and | not | rotr | shr | lsigma0 | lsigma1 | usigma0 | usigma1 | ch | maj | sched | t1 | t2
  | roundfn | compress | hashblocks | pad | computeDigest =>
    exact absurd (congrArg Regs.err (exec_func_regs h rfl)) hne

/-- Settles O47: of the two operations that change `err` one only clears it and the other only sets it. -/
theorem errIsStickyUntilReset : Obligations.ErrIsStickyUntilReset := by
  intro i s t h
  refine ⟨fun hset hclear => ?_, fun hclear hset => ?_⟩
  · rcases exec_changes_err h (by rw [hset, hclear]; decide) with ⟨hi, -⟩ | ⟨-, -, hraised⟩
    · exact hi
    · cases hraised.symm.trans hclear
  · rcases exec_changes_err h (by rw [hset, hclear]; decide) with ⟨-, hcleared⟩ | ⟨hi, hp, -⟩
    · cases hcleared.symm.trans hset
    · exact ⟨hi, hp⟩

end Sys2Proof.Machine
end

section
/-! Where a step stops: no clock edge and no command, only an EXPECT that does not hold and a message too long to pad
(60 R190, 41 R128). -/

namespace Sys2Proof.Machine

/-- Only FUNC rows can be refused (60 R190). -/
theorem exec_goes_on {i : Instr} (hi : i.format ≠ .func) (s : State) : ∃ t, exec i s = .next t := by
  refine (exec_next_or_long i s).resolve_right ?_
  rintro ⟨-, m, rfl | rfl, -⟩
  · exact hi rfl
  · exact hi rfl

/-- Every opcode stands for a CMD row (30 R81). -/
theorem decodeCmd_format (op : BitVec 2) (blk : Block) : (decodeCmd op blk).format = .cmd := by
  unfold decodeCmd
  split_ifs <;> rfl

section
variable {s : State} {rest : List Drive}

/-- An item that comes to an edge goes on (60 R196). -/
theorem step_goes_on_of_fetchEdge {p : Pins} (h : fetch s = fetchEdge s p rest) : ∃ t, step s = .next t := by
  rw [step_of_fetchEdge h]
  exact step_edge_goes_on rfl

theorem step_offer_goes_on {op : BitVec 2} {blk : Block} (h : s.todo = .offer op blk :: rest) :
    ∃ t, step s = .next t := by
  cases hr : s.regs.ready with
  | true => exact step_goes_on_of_fetchEdge (fetch_offer_ready h hr)
  | false => exact step_goes_on_of_fetchEdge (fetch_offer_busy h hr)

theorem step_idle_goes_on {n : Nat} (h : s.todo = .idle n :: rest) : ∃ t, step s = .next t := by
  cases n with
  | zero => exact ⟨_, step_of_host (fetch_idle_zero h)⟩
  | succ n => exact step_goes_on_of_fetchEdge (fetch_idle_succ h)

theorem step_wait_goes_on (h : s.todo = .wait :: rest) : ∃ t, step s = .next t := by
  cases hr : s.regs.ready with
  | true => exact ⟨_, step_of_host (fetch_wait_ready h hr)⟩
  | false => exact step_goes_on_of_fetchEdge (fetch_wait_busy h hr)

theorem step_digest_goes_on (h : s.todo = .digest :: rest) : ∃ t, step s = .next t := by
  by_cases hc : (s.regs.ready && s.regs.digestValid) = true
  · exact ⟨_, step_of_host ((fetch_digest h).trans (if_pos hc))⟩
  · exact step_goes_on_of_fetchEdge ((fetch_digest h).trans (if_neg hc))

theorem step_command_goes_on {op : BitVec 2} {blk : Block} (h : s.todo = .command op blk :: rest) :
    ∃ t, step s = .next t := by
  cases hr : s.regs.ready with
  | true =>
    rw [step_of_word (fetch_command_ready h hr) rfl]
    exact exec_goes_on (by rw [decodeCmd_format]; decide) _
  | false => exact step_goes_on_of_fetchEdge (fetch_command_busy h hr)

theorem step_expect_of_holds {e : Expectation} (h : s.todo = .expect e :: rest) (he : e.holds s.regs = true) :
    step s = .next (s.setTodo rest) := step_of_host ((fetch_expect h).trans (if_pos he))

/-- An EXPECT that does not hold ends the script (log 14). -/
theorem step_expect_of_fails {e : Expectation} (h : s.todo = .expect e :: rest) (he : e.holds s.regs = false) :
    step s = .fault .expectationFailed :=
  step_of_host ((fetch_expect h).trans (if_neg (Bool.eq_false_iff.mp he)))

/-- `update` goes on, or is refused, which it is only where the bits taken in reach 2^64 (41 R128; log 7). -/
theorem step_framerUpdate_or_long {c : List Byte} (h : s.todo = .framerUpdate c :: rest) :
    (∃ t, step s = .next t) ∨ step s = .refused .messageTooLong ∧
      2 ^ 64 ≤ s.framer.counter.toNat + 8 * (s.framer.residual ++ c).length := by
  by_cases hfits : updateFits s.framer c = true
  · exact .inl ⟨_, step_framerUpdate h hfits⟩
  · exact .inr ⟨step_of_host ((fetch_framerUpdate h).trans (if_neg hfits)),
      Nat.le_of_not_lt fun hlt => hfits (updateFits_of_bits_lt hlt)⟩

/-- `finalize` goes on, or is refused, which it is only where the bits taken in reach 2^64 (41 R128; log 7). -/
theorem step_framerFinalize_or_long (h : s.todo = .framerFinalize :: rest) :
    (∃ t, step s = .next t) ∨ step s = .refused .messageTooLong ∧
      2 ^ 64 ≤ s.framer.counter.toNat + 8 * s.framer.residual.length := by
  by_cases hfits : finalizeFits s.framer = true
  · exact .inl ⟨_, step_framerFinalize h hfits⟩
  · exact .inr ⟨step_of_host ((fetch_framerFinalize h).trans (if_neg hfits)),
      Nat.le_of_not_lt fun hlt => hfits (decide_eq_true hlt)⟩

end

/-- Settles O11: by the host's next item. -/
theorem stepStopsOnlyWhereNamed : Obligations.StepStopsOnlyWhereNamed := by
  intro s
  cases htodo : s.todo with
  | nil => exact .inl (step_goes_on_of_fetchEdge (fetch_nil htodo))
  | cons item rest =>
    cases item with
    | reset => exact .inl (step_goes_on_of_fetchEdge (fetch_reset htodo))
    | edge p => exact .inl (step_edge_goes_on htodo)
    | offer op blk => exact .inl (step_offer_goes_on htodo)
    | idle n => exact .inl (step_idle_goes_on htodo)
    | wait => exact .inl (step_wait_goes_on htodo)
    | digest => exact .inl (step_digest_goes_on htodo)
    | command op blk => exact .inl (step_command_goes_on htodo)
    | framerInit => exact .inl ⟨_, step_framerInit htodo⟩
    | expect e =>
      cases he : e.holds s.regs with
      | true => exact .inl ⟨_, step_expect_of_holds htodo he⟩
      | false => exact .inr (.inl ⟨step_expect_of_fails htodo he, e, rest, rfl, he⟩)
    | hash m =>
      by_cases hm : m.length < 2 ^ 61
      · exact .inl ⟨_, step_hash htodo hm⟩
      · exact .inr (.inr ⟨step_hash_of_long htodo hm, .inl ⟨m, rest, rfl, Nat.le_of_not_lt hm⟩⟩)
    | apply i =>
      rw [step_of_direct (fetch_apply htodo)]
      rcases exec_next_or_long i (s.setTodo rest) with hnext | ⟨hrefused, m, hi, hm⟩
      · exact .inl hnext
      · refine .inr (.inr ⟨hrefused, .inr (.inl ⟨m, rest, ?_, hm⟩)⟩)
        exact hi.imp (fun e => by rw [e]) (fun e => by rw [e])
    | framerUpdate c =>
      rcases step_framerUpdate_or_long htodo with hnext | ⟨hrefused, hbits⟩
      · exact .inl hnext
      · exact .inr (.inr ⟨hrefused, .inr (.inr (.inl ⟨c, rest, rfl, hbits⟩))⟩)
    | framerFinalize =>
      rcases step_framerFinalize_or_long htodo with hnext | ⟨hrefused, hbits⟩
      · exact .inl hnext
      · exact .inr (.inr ⟨hrefused, .inr (.inr (.inr ⟨rest, rfl, hbits⟩))⟩)

end Sys2Proof.Machine
end

section
/-! RESET: every register of the core at its reset value, which is where the invariants begin (70 R210, 10 R20). -/

namespace Sys2Proof.Machine

/-- RESET writes the reset values, whatever the registers were (70 R210). -/
theorem exec_reset (s : State) : exec .reset s = .next (s.setRegs State.reset.regs) := rfl

/-- Right after reset the digest port shows the words of `IV` side by side (20 R52, R59). -/
theorem digest_reset :
    State.reset.regs.digest = 0x6a09e667bb67ae853c6ef372a54ff53a510e527f9b05688c1f83d9ab5be0cd19 := by decide

theorem word_v_reset (k : Fin 8) : State.reset.regs.v.word k = 0 := by
  fin_cases k <;> rfl

theorem getElem_w_reset (j : Nat) (hj : j < 64) : State.reset.regs.w[j] = 0 := Vector.getElem_replicate hj

/-- Settles O23: the registers after RESET are those of the reset state, and writing them again changes nothing. -/
theorem resetWritesEveryRegister : Obligations.ResetWritesEveryRegister := by
  intro s v op blk rest
  exact ⟨s.setRegs State.reset.regs, exec_reset s,
    step_edge_reset (s := s.setTodo (.edge ⟨true, v, op, blk⟩ :: rest)) rfl rfl, fun _ => rfl, word_v_reset,
    getElem_w_reset, rfl, rfl, rfl, rfl, rfl, digest_reset, hostKept_setRegs _ _, exec_reset _⟩

theorem framerInv_reset : FramerInv State.reset.framer := Nat.zero_lt_succ 63

/-- The reset state is reached by the empty script in no step (log 13). -/
theorem reachable_reset : Reachable State.reset := ⟨[], 0, rfl⟩

/-- Settles O53: in the reset state the phase is IDLE, `H` is `IV`, nothing is left over from a message, and RESET
writes its registers. -/
theorem resetMeetsTheInvariants : Obligations.ResetMeetsTheInvariants :=
  ⟨sequencerInv_reset, blockInProgress_of_idle rfl, .of_iv rfl rfl, framerInv_reset, reachable_reset, exec_reset⟩

end Sys2Proof.Machine
end

section
/-! Commands offered while the core is busy (44 R175, 70 R220). -/

namespace Sys2Proof.Machine

theorem exec_init_of_ne_idle {s : State} (h : s.regs.phase ≠ .idle) :
    exec .init s = .next s := congrArg _ (State.fire_of_ne h _)

theorem exec_block_of_ne_idle {s : State} (h : s.regs.phase ≠ .idle) (blk : Block) :
    exec (.block blk) s = .next s := congrArg _ (State.fire_of_ne h _)

theorem exec_rsvd_of_ne_idle {s : State} (h : s.regs.phase ≠ .idle) :
    exec .rsvd s = .next s := congrArg _ (State.fire_of_ne h _)

/-- Settles O18: a busy core accepts nothing, so of the two edges only `rst` is looked at; and the guard of each
command does not hold. -/
theorem busyCommandsAreLost : Obligations.BusyCommandsAreLost := by
  intro s op blk rest hp
  exact ⟨step_edge_congr_of_not_accepts (p := ⟨false, true, op, blk⟩) (q := ⟨false, false, 0, 0⟩) rfl
    (not_accepts_of_busy hp _) (not_accepts_of_busy hp _),
    exec_init_of_ne_idle hp, exec_block_of_ne_idle hp blk, exec_rsvd_of_ne_idle hp⟩

end Sys2Proof.Machine
end

section
/-! A BLOCK held on the command port: at every 66th edge the core is idle and accepts it again (70 R221). -/

namespace Sys2Proof.Machine

/-- The host holds a BLOCK for `n` edges. -/
def holdBlock (blk : Block) (n : Nat) : List Drive := List.replicate n (.edge ⟨false, true, 0b10, blk⟩)

theorem holdBlock_add (blk : Block) (m n : Nat) : holdBlock blk (m + n) = holdBlock blk m ++ holdBlock blk n :=
  List.replicate_add m n _

/-- A BLOCK held for its own 66 edges leaves what the whole command leaves: the first edge accepts it, and the offers at
the 65 others are lost (43 R160, 70 R220). -/
theorem run_holdBlock {s : State} {blk : Block} {rest : List Drive} (hp : s.regs.phase = .idle)
    (htodo : s.todo = holdBlock blk Config.blockEdges ++ rest) :
    run Config.blockEdges s = .next ((s.setTodo rest).setRegs (blockRegs blk s.regs)) := by
  refine run_block (ps := List.replicate 65 ⟨false, true, 0b10, blk⟩) hp List.length_replicate
    (fun p hmem => by rw [List.eq_of_mem_replicate hmem]) ?_
  rw [htodo, List.map_replicate]
  rfl

/-- Settles O59: the first 66 edges leave the core idle with the block folded in, and the next 66 fold it in once
more. -/
theorem heldBlockIsAcceptedAgain : Obligations.HeldBlockIsAcceptedAgain := by
  intro s blk rest hfaultless hp htodo
  have htwice : s.todo = holdBlock blk Config.blockEdges ++ (holdBlock blk Config.blockEdges ++ rest) := by
    rw [htodo, ← List.append_assoc, ← holdBlock_add]
    rfl
  have hfirst := run_holdBlock hp htwice
  have hsecond := run_holdBlock (blk := blk) (rest := rest)
    (s := (s.setTodo (holdBlock blk Config.blockEdges ++ rest)).setRegs (blockRegs blk s.regs))
    (by rw [State.setRegs_regs, blockRegs_phase]) (by rw [State.setRegs_todo, State.setTodo_todo])
  refine ⟨_, (run_add hfirst Config.blockEdges).trans hsecond, ?_, ?_, ?_, ?_⟩
  · rw [State.setRegs_regs, blockRegs_h, State.setRegs_regs, blockRegs_h]
  · rw [State.setRegs_regs, blockRegs_dv]
  · rw [Faultless, State.setRegs_regs, blockRegs_err, State.setRegs_regs, blockRegs_err]
    exact hfaultless
  · rw [State.setRegs_todo, State.setTodo_todo]

end Sys2Proof.Machine
end
